-- ==== Sys2Proof/Word.lean ====
section
/-! DEFINITION. The words of the machine: bytes, 16-bit words, register numbers, and how an instruction
word is cut into its fields and put together from two bytes. Numbering of bits: R9. -/

namespace Sys2Proof

/-- An 8-bit unsigned value: a general register (R20), a timer (R32), a byte of memory (R60). -/
abbrev Byte := BitVec 8

/-- A 16-bit unsigned value: `I` (R25), `PC` (R26), a call-stack entry (R30), an instruction word (R90). -/
abbrev Word := BitVec 16

/-- A register number, or the number of a key: one hex digit, all 16 values legal (R20, R22, R220). -/
abbrev Reg := Fin 16

/-- `a ++ b` of R11 for two bytes: `hi` in bits 15..8, `lo` in bits 7..0. -/
def wordOfBytes (hi lo : Byte) : Word := hi ++ lo

/-- Bits 15..8 of a word. -/
def hiByte (w : Word) : Byte := w.extractLsb' 8 8

/-- Bits 7..0 of a word. -/
def loByte (w : Word) : Byte := w.extractLsb' 0 8

end Sys2Proof
end

