-- ==== Sys2Proof/Syntax.lean ====
section
/-! DEFINITION. The instruction set: one constructor per row of the opcode map R95 (34 rows), and the names of
the rows. -/

namespace Sys2Proof

/-- The 34 instructions (R95). `x`, `y` are register operands; `n`, `nn`, `nnn` the unsigned immediates of
4, 8 and 12 bits (R91, R92). -/
inductive Instr where
  /-- `00E0` clear the framebuffer (R200). -/
  | cls
  /-- `00EE` return from subroutine (R123). -/
  | ret
  /-- `1nnn` jump (R124). -/
  | jp (nnn : BitVec 12)
  /-- `2nnn` call subroutine (R125). -/
  | call (nnn : BitVec 12)
  /-- `3xnn` skip if equal, immediate (R127). -/
  | seI (x : Reg) (nn : Byte)
  /-- `4xnn` skip if not equal, immediate (R128). -/
  | sneI (x : Reg) (nn : Byte)
  /-- `5xy0` skip if equal, register (R129). -/
  | seR (x y : Reg)
  /-- `6xnn` load immediate (R151). -/
  | ldI (x : Reg) (nn : Byte)
  /-- `7xnn` add immediate, no flag (R152). -/
  | addI (x : Reg) (nn : Byte)
  /-- `8xy0` copy (R153). -/
  | ldR (x y : Reg)
  /-- `8xy1` bitwise OR (R154). -/
  | orR (x y : Reg)
  /-- `8xy2` bitwise AND (R155). -/
  | andR (x y : Reg)
  /-- `8xy3` bitwise exclusive OR (R156). -/
  | xorR (x y : Reg)
  /-- `8xy4` add with carry out (R157). -/
  | addR (x y : Reg)
  /-- `8xy5` subtract, flag = no borrow (R158). -/
  | sub (x y : Reg)
  /-- `8xy6` shift right by one (R159). -/
  | shr (x y : Reg)
  /-- `8xy7` reverse subtract, flag = no borrow (R160). -/
  | subn (x y : Reg)
  /-- `8xyE` shift left by one (R161). -/
  | shl (x y : Reg)
  /-- `9xy0` skip if not equal, register (R130). -/
  | sneR (x y : Reg)
  /-- `Annn` load index (R180). -/
  | ldIdx (nnn : BitVec 12)
  /-- `Bnnn` jump with offset `V[0]` (R126). -/
  | jpV0 (nnn : BitVec 12)
  /-- `Cxnn` random byte under a mask (R162). -/
  | rnd (x : Reg) (nn : Byte)
  /-- `Dxyn` XOR a sprite into the framebuffer (R201). -/
  | drw (x y : Reg) (n : BitVec 4)
  /-- `Ex9E` skip if key pressed (R221). -/
  | skp (x : Reg)
  /-- `ExA1` skip if key not pressed (R222). -/
  | sknp (x : Reg)
  /-- `Fx07` read the delay timer (R225). -/
  | ldRdt (x : Reg)
  /-- `Fx0A` wait for a key (R223). -/
  | ldKey (x : Reg)
  /-- `Fx15` set the delay timer (R226). -/
  | ldWdt (x : Reg)
  /-- `Fx18` set the sound timer (R227). -/
  | ldWst (x : Reg)
  /-- `Fx1E` add register to index (R181). -/
  | addIdx (x : Reg)
  /-- `Fx29` point index at a font glyph (R182). -/
  | ldFont (x : Reg)
  /-- `Fx33` store the three decimal digits (R183). -/
  | bcd (x : Reg)
  /-- `Fx55` store `V[0]` to `V[x]` (R184). -/
  | stm (x : Reg)
  /-- `Fx65` load `V[0]` to `V[x]` (R185). -/
  | ldm (x : Reg)
deriving DecidableEq, Repr

/-- The 34 rows of the opcode map, without operands (R95). -/
inductive Row where
  | cls | ret | jp | call | seI | sneI | seR | ldI | addI | ldR | orR | andR | xorR | addR | sub | shr
  | subn | shl | sneR | ldIdx | jpV0 | rnd | drw | skp | sknp | ldRdt | ldKey | ldWdt | ldWst | addIdx
  | ldFont | bcd | stm | ldm
deriving DecidableEq, Repr

/-- The rows in the order of R95. -/
def Row.all : List Row :=
  [.cls, .ret, .jp, .call, .seI, .sneI, .seR, .ldI, .addI, .ldR, .orR, .andR] ++
  [.xorR, .addR, .sub, .shr, .subn, .shl, .sneR, .ldIdx, .jpV0, .rnd, .drw, .skp] ++
  [.sknp, .ldRdt, .ldKey, .ldWdt, .ldWst, .addIdx, .ldFont, .bcd, .stm, .ldm]

/-- The mnemonic of a row, as R95 and R108 spell it. -/
def Row.mnemonic : Row → String
  | .cls => "CLS" | .ret => "RET" | .jp => "JP" | .call => "CALL" | .seI => "SE.I" | .sneI => "SNE.I"
  | .seR => "SE.R" | .ldI => "LD.I" | .addI => "ADD.I" | .ldR => "LD.R" | .orR => "OR" | .andR => "AND"
  | .xorR => "XOR" | .addR => "ADD.R" | .sub => "SUB" | .shr => "SHR" | .subn => "SUBN" | .shl => "SHL"
  | .sneR => "SNE.R" | .ldIdx => "LD.IDX" | .jpV0 => "JP.V0" | .rnd => "RND" | .drw => "DRW"
  | .skp => "SKP" | .sknp => "SKNP" | .ldRdt => "LD.RDT" | .ldKey => "LD.KEY" | .ldWdt => "LD.WDT"
  | .ldWst => "LD.WST" | .addIdx => "ADD.IDX" | .ldFont => "LD.FONT" | .bcd => "BCD" | .stm => "STM"
  | .ldm => "LDM"

/-- The row an instruction belongs to. -/
def Instr.row : Instr → Row
  | .cls => .cls
  | .ret => .ret
  | .jp _ => .jp
  | .call _ => .call
  | .seI _ _ => .seI
  | .sneI _ _ => .sneI
  | .seR _ _ => .seR
  | .ldI _ _ => .ldI
  | .addI _ _ => .addI
  | .ldR _ _ => .ldR
  | .orR _ _ => .orR
  | .andR _ _ => .andR
  | .xorR _ _ => .xorR
  | .addR _ _ => .addR
  | .sub _ _ => .sub
  | .shr _ _ => .shr
  | .subn _ _ => .subn
  | .shl _ _ => .shl
  | .sneR _ _ => .sneR
  | .ldIdx _ => .ldIdx
  | .jpV0 _ => .jpV0
  | .rnd _ _ => .rnd
  | .drw _ _ _ => .drw
  | .skp _ => .skp
  | .sknp _ => .sknp
  | .ldRdt _ => .ldRdt
  | .ldKey _ => .ldKey
  | .ldWdt _ => .ldWdt
  | .ldWst _ => .ldWst
  | .addIdx _ => .addIdx
  | .ldFont _ => .ldFont
  | .bcd _ => .bcd
  | .stm _ => .stm
  | .ldm _ => .ldm

end Sys2Proof
end

