-- ==== Sys2Proof/WellFormed.lean ====
section
/-! DEFINITION. Well-formedness. The fields of an instruction have no illegal value (R101), so the type Instr
itself admits only well-formed operands; what can be ill-formed is a LINE OF ASSEMBLY (R108): a row of the
opcode map with operands written as register digits and plain numbers. A line is well-formed when its
operands have the shape of the row and each number fits its field. -/

namespace Sys2Proof

/-- An operand as an assembly line writes it (R108): a register `Vk`, or a number. -/
inductive AsmOperand where
  | reg (k : Nat)
  | num (v : Nat)
deriving DecidableEq, Repr

/-- A line of assembly in the syntax of R108: the row and the operands as written. -/
structure AsmLine where
  row      : Row
  operands : List AsmOperand
deriving DecidableEq, Repr

/-- What a row wants at one operand place: a register, or a number of so many bits (R91, R92). -/
inductive AsmPlace where
  | reg
  | imm (bits : Nat)
deriving DecidableEq, Repr

/-- The operand places of a row: the "assembly syntax" column of R108. -/
def Row.places : Row → List AsmPlace
  | .cls | .ret => []
  | .jp | .call | .ldIdx | .jpV0 => [.imm 12]
  | .seI | .sneI | .ldI | .addI | .rnd => [.reg, .imm 8]
  | .seR | .ldR | .orR | .andR | .xorR | .addR | .sub | .shr | .subn | .shl | .sneR => [.reg, .reg]
  | .drw => [.reg, .reg, .imm 4]
  | .skp | .sknp | .ldRdt | .ldKey | .ldWdt | .ldWst | .addIdx | .ldFont | .bcd | .stm | .ldm => [.reg]

/-- An operand fits a place: a register number is one hex digit, a number fits the field's width (R91, R92). -/
def AsmPlace.fits : AsmPlace → AsmOperand → Bool
  | .reg, .reg k => k < 16
  | .imm bits, .num v => v < 2 ^ bits
  | .reg, .num _ => false
  | .imm _, .reg _ => false

/-- Every operand fits its place, and there are exactly as many operands as places. -/
def fitsAll : List AsmPlace → List AsmOperand → Bool
  | [], [] => true
  | p :: ps, o :: os => p.fits o && fitsAll ps os
  | [], _ :: _ => false
  | _ :: _, [] => false

/-- A line of assembly is well-formed (R108). -/
def AsmLine.wellFormed (l : AsmLine) : Bool := fitsAll l.row.places l.operands

/-- The line of assembly that stands for an instruction (R108). -/
def Instr.toAsm : Instr → AsmLine
  | .cls => ⟨.cls, []⟩
  | .ret => ⟨.ret, []⟩
  | .jp nnn => ⟨.jp, [.num nnn.toNat]⟩
  | .call nnn => ⟨.call, [.num nnn.toNat]⟩
  | .seI x nn => ⟨.seI, [.reg x, .num nn.toNat]⟩
  | .sneI x nn => ⟨.sneI, [.reg x, .num nn.toNat]⟩
  | .seR x y => ⟨.seR, [.reg x, .reg y]⟩
  | .ldI x nn => ⟨.ldI, [.reg x, .num nn.toNat]⟩
  | .addI x nn => ⟨.addI, [.reg x, .num nn.toNat]⟩
  | .ldR x y => ⟨.ldR, [.reg x, .reg y]⟩
  | .orR x y => ⟨.orR, [.reg x, .reg y]⟩
  | .andR x y => ⟨.andR, [.reg x, .reg y]⟩
  | .xorR x y => ⟨.xorR, [.reg x, .reg y]⟩
  | .addR x y => ⟨.addR, [.reg x, .reg y]⟩
  | .sub x y => ⟨.sub, [.reg x, .reg y]⟩
  | .shr x y => ⟨.shr, [.reg x, .reg y]⟩
  | .subn x y => ⟨.subn, [.reg x, .reg y]⟩
  | .shl x y => ⟨.shl, [.reg x, .reg y]⟩
  | .sneR x y => ⟨.sneR, [.reg x, .reg y]⟩
  | .ldIdx nnn => ⟨.ldIdx, [.num nnn.toNat]⟩
  | .jpV0 nnn => ⟨.jpV0, [.num nnn.toNat]⟩
  | .rnd x nn => ⟨.rnd, [.reg x, .num nn.toNat]⟩
  | .drw x y n => ⟨.drw, [.reg x, .reg y, .num n.toNat]⟩
  | .skp x => ⟨.skp, [.reg x]⟩
  | .sknp x => ⟨.sknp, [.reg x]⟩
  | .ldRdt x => ⟨.ldRdt, [.reg x]⟩
  | .ldKey x => ⟨.ldKey, [.reg x]⟩
  | .ldWdt x => ⟨.ldWdt, [.reg x]⟩
  | .ldWst x => ⟨.ldWst, [.reg x]⟩
  | .addIdx x => ⟨.addIdx, [.reg x]⟩
  | .ldFont x => ⟨.ldFont, [.reg x]⟩
  | .bcd x => ⟨.bcd, [.reg x]⟩
  | .stm x => ⟨.stm, [.reg x]⟩
  | .ldm x => ⟨.ldm, [.reg x]⟩

/-- An instruction is well-formed when its line of assembly is. By R101 every instruction is (proved
constructor by constructor in Laws/PerInstr.lean). -/
def Instr.wellFormed (i : Instr) : Bool := i.toAsm.wellFormed

end Sys2Proof
end

