-- ==== Sys2Proof/Decode.lean ====
section
/-! DEFINITION. Decoding (R91 to R101) and, after it, encoding (R95, R108). The decoder is total on all 65536
words and names the reason when a word is unrecognised. -/

namespace Sys2Proof

/-- `IGNORE_LOW_NIBBLE_5_9` of R6, R99: classes 0x5 and 0x9 decode on the class nibble alone. -/
def ignoreLowNibble59 : Bool := true

/-- Why a word is unrecognised (R100): which decoding rule found no row. -/
inductive Unrecognised where
  /-- Class 0x0 with `nnn` neither 0x0E0 nor 0x0EE (R96). -/
  | class0
  /-- Class 0x8 with `n` not in 0..7, 0xE (R97). -/
  | class8
  /-- Class 0xE with `nn` neither 0x9E nor 0xA1 (R98). -/
  | classE
  /-- Class 0xF with `nn` not one of the nine codes (R98). -/
  | classF
  /-- Class 0x5 or 0x9 with a non-zero low nibble, only under `IGNORE_LOW_NIBBLE_5_9 = false` (R99). -/
  | lowNibble59
  /-- Fewer than two bytes were given to the byte decoder (an instruction is two bytes, R90). -/
  | truncated
deriving DecidableEq, Repr

/-- `op[15:12]` (R91). -/
def classField (op : Word) : BitVec 4 := op.extractLsb' 12 4
/-- `op[11:8]` (R91). -/
def xField (op : Word) : Reg := (op.extractLsb' 8 4).toFin
/-- `op[7:4]` (R91). -/
def yField (op : Word) : Reg := (op.extractLsb' 4 4).toFin
/-- `op[3:0]` (R91). -/
def nField (op : Word) : BitVec 4 := op.extractLsb' 0 4
/-- `op[7:0]` (R91). -/
def nnField (op : Word) : Byte := op.extractLsb' 0 8
/-- `op[11:0]` (R91). -/
def nnnField (op : Word) : BitVec 12 := op.extractLsb' 0 12

/-- Class 0x0, on the whole `nnn` (R96). -/
def decodeClass0 (op : Word) : Except Unrecognised Instr :=
  match (nnnField op).toNat with
  | 0x0E0 => .ok .cls
  | 0x0EE => .ok .ret
  | _ => .error .class0

/-- Class 0x8, on `n` (R97). -/
def decodeClass8 (op : Word) : Except Unrecognised Instr :=
  match (nField op).toNat with
  | 0x0 => .ok (.ldR (xField op) (yField op))
  | 0x1 => .ok (.orR (xField op) (yField op))
  | 0x2 => .ok (.andR (xField op) (yField op))
  | 0x3 => .ok (.xorR (xField op) (yField op))
  | 0x4 => .ok (.addR (xField op) (yField op))
  | 0x5 => .ok (.sub (xField op) (yField op))
  | 0x6 => .ok (.shr (xField op) (yField op))
  | 0x7 => .ok (.subn (xField op) (yField op))
  | 0xE => .ok (.shl (xField op) (yField op))
  | _ => .error .class8

/-- Class 0xE, on `nn` (R98). -/
def decodeClassE (op : Word) : Except Unrecognised Instr :=
  match (nnField op).toNat with
  | 0x9E => .ok (.skp (xField op))
  | 0xA1 => .ok (.sknp (xField op))
  | _ => .error .classE

/-- Class 0xF, on `nn` (R98). -/
def decodeClassF (op : Word) : Except Unrecognised Instr :=
  match (nnField op).toNat with
  | 0x07 => .ok (.ldRdt (xField op))
  | 0x0A => .ok (.ldKey (xField op))
  | 0x15 => .ok (.ldWdt (xField op))
  | 0x18 => .ok (.ldWst (xField op))
  | 0x1E => .ok (.addIdx (xField op))
  | 0x29 => .ok (.ldFont (xField op))
  | 0x33 => .ok (.bcd (xField op))
  | 0x55 => .ok (.stm (xField op))
  | 0x65 => .ok (.ldm (xField op))
  | _ => .error .classF

/-- Classes 0x5 and 0x9: `i`, unless the low nibble counts and is not 0 (R99). -/
def decodeClass59 (ignoreLow : Bool) (op : Word) (i : Instr) : Except Unrecognised Instr :=
  if ignoreLow || nField op == 0 then .ok i else .error .lowNibble59

/-- Decoding of one word, class first (R94), with the parameter of R99. -/
def decodeWith (ignoreLow : Bool) (op : Word) : Except Unrecognised Instr :=
  match (classField op).toNat with
  | 0x0 => decodeClass0 op
  | 0x1 => .ok (.jp (nnnField op))
  | 0x2 => .ok (.call (nnnField op))
  | 0x3 => .ok (.seI (xField op) (nnField op))
  | 0x4 => .ok (.sneI (xField op) (nnField op))
  | 0x5 => decodeClass59 ignoreLow op (.seR (xField op) (yField op))
  | 0x6 => .ok (.ldI (xField op) (nnField op))
  | 0x7 => .ok (.addI (xField op) (nnField op))
  | 0x8 => decodeClass8 op
  | 0x9 => decodeClass59 ignoreLow op (.sneR (xField op) (yField op))
  | 0xA => .ok (.ldIdx (nnnField op))
  | 0xB => .ok (.jpV0 (nnnField op))
  | 0xC => .ok (.rnd (xField op) (nnField op))
  | 0xD => .ok (.drw (xField op) (yField op) (nField op))
  | 0xE => decodeClassE op
  | _ => decodeClassF op

/-- Decoding on this hardware (R94 to R100). -/
def decode (op : Word) : Except Unrecognised Instr := decodeWith ignoreLowNibble59 op

/-- Decoding of bytes in memory order, high byte first (R61), with the bytes that follow. -/
def decodeBytes : List Byte → Except Unrecognised (Instr × List Byte)
  | hi :: lo :: rest =>
    match decode (wordOfBytes hi lo) with
    | .ok i => .ok (i, rest)
    | .error e => .error e
  | [_] => .error .truncated
  | [] => .error .truncated

/-- The two bytes, high byte first (R61), of an instruction of the opcode table whose bits are `w`. -/
def tableWordBytes (nbits w : Nat) : List Byte :=
  [hiByte (BitVec.ofNat 16 (w % 2 ^ nbits)), loByte (BitVec.ofNat 16 (w % 2 ^ nbits))]

/-- What the decoder reads from an instruction whose bits are `w`, numbered as the opcode table numbers
them. Every instruction is 16 bits (R90): a wider one is refused. -/
def decodeTableWord (nbits w : Nat) : Option Instr :=
  if nbits ≤ 16 then
    match decodeBytes (tableWordBytes nbits w) with
    | .ok (i, _) => some i
    | .error _ => none
  else none

/-! ## The opcode map as a table (R95) -/

/-- The `mask` column of R95 (this hardware's `IGNORE_LOW_NIBBLE_5_9 = true`). -/
def Row.mask : Row → Word
  | .cls | .ret => 0xFFFF
  | .ldR | .orR | .andR | .xorR | .addR | .sub | .shr | .subn | .shl => 0xF00F
  | .skp | .sknp | .ldRdt | .ldKey | .ldWdt | .ldWst | .addIdx | .ldFont | .bcd | .stm | .ldm => 0xF0FF
  | .jp | .call | .seI | .sneI | .seR | .ldI | .addI | .sneR | .ldIdx | .jpV0 | .rnd | .drw => 0xF000

/-- The `match` column of R95. -/
def Row.pattern : Row → Word
  | .cls => 0x00E0 | .ret => 0x00EE | .jp => 0x1000 | .call => 0x2000 | .seI => 0x3000 | .sneI => 0x4000
  | .seR => 0x5000 | .ldI => 0x6000 | .addI => 0x7000 | .ldR => 0x8000 | .orR => 0x8001 | .andR => 0x8002
  | .xorR => 0x8003 | .addR => 0x8004 | .sub => 0x8005 | .shr => 0x8006 | .subn => 0x8007 | .shl => 0x800E
  | .sneR => 0x9000 | .ldIdx => 0xA000 | .jpV0 => 0xB000 | .rnd => 0xC000 | .drw => 0xD000
  | .skp => 0xE09E | .sknp => 0xE0A1 | .ldRdt => 0xF007 | .ldKey => 0xF00A | .ldWdt => 0xF015
  | .ldWst => 0xF018 | .addIdx => 0xF01E | .ldFont => 0xF029 | .bcd => 0xF033 | .stm => 0xF055
  | .ldm => 0xF065

/-- "A word `op` is the instruction of a row exactly when `(op & mask) == match`" (R95). -/
def Row.holds (r : Row) (op : Word) : Bool := op &&& r.mask == r.pattern

/-! ## Encoding (the layouts of R93, the codes of R95) -/

/-- Format Z: class 0x0 and a fixed 12-bit code (R93). -/
def formatZ (code : BitVec 12) : Word := (0x0 : BitVec 4) ++ code
/-- Format A: class and `nnn` (R93). -/
def formatA (cls : BitVec 4) (nnn : BitVec 12) : Word := cls ++ nnn
/-- Format XI: class, `x`, `nn`; format XF is the same layout with the function code as `nn` (R93). -/
def formatXI (cls : BitVec 4) (x : Reg) (nn : Byte) : Word := cls ++ BitVec.ofFin (w := 4) x ++ nn
/-- Format XYN: class, `x`, `y`, `n`; format XY is the same layout with the function code as `n` (R93). -/
def formatXYN (cls : BitVec 4) (x y : Reg) (n : BitVec 4) : Word :=
  cls ++ BitVec.ofFin (w := 4) x ++ BitVec.ofFin (w := 4) y ++ n

/-- The word of an instruction; for `SE.R` and `SNE.R` the canonical form with a zero low nibble (R99, R108). -/
def encode : Instr → Word
  | .cls => formatZ 0x0E0
  | .ret => formatZ 0x0EE
  | .jp nnn => formatA 0x1 nnn
  | .call nnn => formatA 0x2 nnn
  | .seI x nn => formatXI 0x3 x nn
  | .sneI x nn => formatXI 0x4 x nn
  | .seR x y => formatXYN 0x5 x y 0x0
  | .ldI x nn => formatXI 0x6 x nn
  | .addI x nn => formatXI 0x7 x nn
  | .ldR x y => formatXYN 0x8 x y 0x0
  | .orR x y => formatXYN 0x8 x y 0x1
  | .andR x y => formatXYN 0x8 x y 0x2
  | .xorR x y => formatXYN 0x8 x y 0x3
  | .addR x y => formatXYN 0x8 x y 0x4
  | .sub x y => formatXYN 0x8 x y 0x5
  | .shr x y => formatXYN 0x8 x y 0x6
  | .subn x y => formatXYN 0x8 x y 0x7
  | .shl x y => formatXYN 0x8 x y 0xE
  | .sneR x y => formatXYN 0x9 x y 0x0
  | .ldIdx nnn => formatA 0xA nnn
  | .jpV0 nnn => formatA 0xB nnn
  | .rnd x nn => formatXI 0xC x nn
  | .drw x y n => formatXYN 0xD x y n
  | .skp x => formatXI 0xE x 0x9E
  | .sknp x => formatXI 0xE x 0xA1
  | .ldRdt x => formatXI 0xF x 0x07
  | .ldKey x => formatXI 0xF x 0x0A
  | .ldWdt x => formatXI 0xF x 0x15
  | .ldWst x => formatXI 0xF x 0x18
  | .addIdx x => formatXI 0xF x 0x1E
  | .ldFont x => formatXI 0xF x 0x29
  | .bcd x => formatXI 0xF x 0x33
  | .stm x => formatXI 0xF x 0x55
  | .ldm x => formatXI 0xF x 0x65

/-- The two bytes of an instruction, "emitted high byte first" (R108, R61). -/
def encodeBytes (i : Instr) : List Byte := [hiByte (encode i), loByte (encode i)]

/-- The value an operand of an assembly line is written with. -/
def AsmOperand.value : AsmOperand → Nat
  | .reg k => k
  | .num v => v

/-- Where an assembly line places its operands: "take the row's `match`, place `x` in bits 11..8, `y` in bits
7..4, and `n`, `nn` or `nnn` in the low bits" (R108). -/
def placeOperands : List AsmPlace → List AsmOperand → Nat
  | [.imm _], [a] => a.value
  | [.reg], [a] => a.value * 256
  | [.reg, .imm _], [a, b] => a.value * 256 + b.value
  | [.reg, .reg], [a, b] => a.value * 256 + b.value * 16
  | [.reg, .reg, .imm _], [a, b, c] => a.value * 256 + b.value * 16 + c.value
  | _, _ => 0

/-- The word an assembly line stands for, none for an ill-formed line (R108). -/
def assemble (l : AsmLine) : Option Word :=
  if l.wellFormed then some (l.row.pattern ||| BitVec.ofNat 16 (placeOperands l.row.places l.operands)) else none

end Sys2Proof
end

