-- ==== Sys2Proof/Config.lean ====
section
/-! DEFINITION. The sizes that shape this hardware (the table of R6) and the free values: the inputs that the
spec puts under no law. The parameters that are a choice of the spec and not of the machine's shape
(EDGE_WRAP, the font, IGNORE_LOW_NIBBLE_5_9) stand in Machine/Params.lean and Decode.lean, so that a
later repair may mend them. -/

namespace Sys2Proof.Config

/-- `MEM_SIZE` of R6: bytes of `MEM`. -/
def memSize : Nat := 65536

/-- `LOAD_BASE` of R6: address of the first program byte, reset value of `PC`, lowest legal `PC`. -/
def loadBase : Nat := 0x200

/-- `STACK_DEPTH` of R6: entries of the call stack. -/
abbrev stackDepth : Nat := 16

/-- `FB_W` of R6: framebuffer columns. -/
abbrev fbWidth : Nat := 64

/-- `FB_H` of R6: framebuffer rows. -/
abbrev fbHeight : Nat := 32

/-- `TICK_HZ` of R6: the nominal rate of the tick. Nothing in the model depends on it (R292). -/
def tickHz : Nat := 60

/-- FREE VALUE (U10, R220): the level of the `keys` port in core cycle number `k`. -/
opaque freeKeys : Nat → BitVec 16

/-- FREE VALUE (U9, R162): the byte on the `rnd` port in core cycle number `k`. -/
opaque freeRnd : Nat → BitVec 8

/-- FREE VALUE (U11, R252): the `stop_req` port as sampled in core cycle number `k`. -/
opaque freeStopReq : Nat → Bool

/-- FREE VALUE (U8, R261): whether a `tick60` strobe arrives before phase T of core cycle number `k`. -/
opaque freeTickBefore : Nat → Bool

/-- FREE VALUE (U8, R261): whether a `tick60` strobe arrives with or after the tick service of core
cycle number `k` and before the cycle ends. -/
opaque freeTickDuring : Nat → Bool

end Sys2Proof.Config
end

