-- ==== Sys2Proof/Machine/Params.lean ====
section
/-! DEFINITION. The parameters of R6 that are the spec's own choice for this hardware, each followed to the rule
that fixes it: EDGE_WRAP, FONT_BASE, GLYPH_BYTES, FONT, and with them what memory reads as after reset. -/

namespace Sys2Proof.Machine

/-- `EDGE_WRAP` of R6 and R201: this hardware clips a sprite at the right and bottom edges. -/
def edgeWrap : Bool := false

/-- `FONT_BASE` of R6 and R69: the address of glyph 0. -/
def fontBase : Nat := 0x000

/-- `GLYPH_BYTES` of R6 and R69: bytes per glyph. -/
def glyphBytes : Nat := 5

/-- `FONT` of R6: the 80 glyph bytes in the order of the table of R69, row 0 of a glyph first. -/
def font : List Byte :=
  [0xF0, 0x90, 0x90, 0x90, 0xF0] ++ [0x20, 0x60, 0x20, 0x20, 0x70] ++
  [0xF0, 0x10, 0xF0, 0x80, 0xF0] ++ [0xF0, 0x10, 0xF0, 0x10, 0xF0] ++
  [0x90, 0x90, 0xF0, 0x10, 0x10] ++ [0xF0, 0x80, 0xF0, 0x10, 0xF0] ++
  [0xF0, 0x80, 0xF0, 0x90, 0xF0] ++ [0xF0, 0x10, 0x20, 0x40, 0x40] ++
  [0xF0, 0x90, 0xF0, 0x90, 0xF0] ++ [0xF0, 0x90, 0xF0, 0x10, 0xF0] ++
  [0xF0, 0x90, 0xF0, 0x90, 0x90] ++ [0xE0, 0x90, 0xE0, 0x90, 0xE0] ++
  [0xF0, 0x80, 0x80, 0x80, 0xF0] ++ [0xE0, 0x90, 0x90, 0x90, 0xE0] ++
  [0xF0, 0x80, 0xF0, 0x80, 0xF0] ++ [0xF0, 0x80, 0xF0, 0x80, 0x80]

/-- The content of `MEM[a]` after reset with no program loaded: the font at `FONT_BASE`, 0x00 everywhere else
(R41, R68, R69, R280). It is what an address that memory does not list reads as. -/
def resetByte (a : Nat) : Byte := if fontBase ≤ a then font.getD (a - fontBase) 0x00 else 0x00

end Sys2Proof.Machine
end

