-- ==== Sys2Proof/Machine/State.lean ====
section
/-! DEFINITION. The state of the core: the tuple of 10_state.md, every piece of it, and the model's own fields
for what the spec makes arguments of the step (the input ports) and asks a model to record (the strobes). -/

namespace Sys2Proof.Machine

/-- `MODE` (R35). -/
inductive Mode where
  | run
  | halt
deriving DecidableEq, Repr

/-- The six values `CAUSE` takes (R36, R241, U20); codes 6 and 7 never occur. -/
inductive Cause where
  /-- 0: the value while `MODE == RUN`. -/
  | none
  /-- 1: the stop request (R252). -/
  | stopRequest
  /-- 2: `CALL` with a full stack (R242). -/
  | stackOverflow
  /-- 3: `RET` with an empty stack (R243). -/
  | stackUnderflow
  /-- 4: an access beyond memory (R244). -/
  | memBounds
  /-- 5: `next_pc` outside 0x200..0xFFFE (R122). -/
  | pcBounds
deriving DecidableEq, Repr

/-- A strobe of an output port (R8, R245, R246): the events of a run. -/
inductive Event where
  /-- One `ill` strobe with `ill_pc` and `ill_op` (R245). -/
  | illegalOp (pc op : Word)
  /-- One `present` strobe at the end of a core cycle (R8, R120 phase P). -/
  | present
deriving DecidableEq, Repr

/-- The input ports as one core cycle sees them (R8, R120, R261). -/
structure CycleInput where
  /-- A `tick60` strobe arrives between the previous core cycle and phase T of this one (R261). -/
  tickBefore : Bool
  /-- A `tick60` strobe arrives with or after this cycle's tick service, before the cycle ends (R261). -/
  tickDuring : Bool
  /-- `keys`, bit `k` is key `k` (R220). -/
  keys : BitVec 16
  /-- `rnd` (R162). -/
  rnd : Byte
  /-- `stop_req` at the sample of phase Q (R252). -/
  stopReq : Bool
deriving DecidableEq, Repr

/-- `MEM` as (address, byte) pairs: addresses strictly rising, none listed that reads as after reset. -/
abbrev Memory := List Host.Cell

/-- The canonical form from address `lo` upward: strictly rising addresses inside `MEM`, and no entry equal to
what its address reads as unlisted. -/
def Memory.wfFrom : Nat → Memory → Bool
  | _, [] => true
  | lo, (a, b) :: m => decide (lo ≤ a) && decide (a < Config.memSize) && (b != resetByte a) && wfFrom (a + 1) m

/-- The canonical form of memory. -/
def Memory.wf (m : Memory) : Bool := Memory.wfFrom 0 m

/-- `FB[r][c]`, row 0 at the top, column 0 at the left (R33). -/
abbrev Framebuffer := Vector (Vector Bool Config.fbWidth) Config.fbHeight

/-- The state of the core (10_state.md). -/
structure State where
  /-- `V[0..15]` (R20); `V[15]` is `VF` (R23). -/
  v : Vector Byte 16
  /-- `I` (R25). -/
  i : Word
  /-- `PC` (R26). -/
  pc : Word
  /-- `STK[0..15]` (R30). -/
  stk : Vector Word Config.stackDepth
  /-- `SP`, the 17 values 0..16 (R31). -/
  sp : Fin (Config.stackDepth + 1)
  /-- `DT` (R32). -/
  dt : Byte
  /-- `ST` (R32). -/
  st : Byte
  /-- `TICK_PEND` (R39). -/
  tickPend : Bool
  /-- `FB` (R33). -/
  fb : Framebuffer
  /-- `MEM` (R34). -/
  mem : Memory
  /-- `MODE` (R35). -/
  mode : Mode
  /-- `CAUSE` (R36). -/
  cause : Cause
  /-- `EPC` (R36). -/
  epc : Word
  /-- `EINFO` (R36). -/
  einfo : Word
  /-- `WAIT` (R37). -/
  wait : Bool
  /-- `ILL` (R38). -/
  ill : Bool
  /-- The model's own: the strobes so far, newest first (R245). -/
  events : List Event
  /-- The model's own: the inputs of the coming core cycles, the next one first; where the list ends the free
  values of Config take over (log entry 1). -/
  inputs : List CycleInput
  /-- The model's own: how many core cycles have been taken; it numbers the free values (log entry 1). -/
  cycle : Nat
deriving DecidableEq, Repr

/-- Why `step` answers no next state. No instruction's meaning raises one of these. -/
inductive Fault where
  /-- Raised by `step` when `MODE == HALT`: "in HALT the machine has no step" (R120, R35, U17), stuck until
  reset. Safe: nothing is claimed of the core after a halt. -/
  | halted
  /-- Raised by `step` when `MODE == RUN` and `PC` is outside 0x0200..0xFFFE: R28 rules that state out and no run
  reaches it. Safe: the hardware has no such state. -/
  | pcOutOfRange
deriving DecidableEq, Repr

/-- Why the model gives an instruction no meaning. -/
inductive Refusal where
  /-- Raised by an arm of `exec` whose instruction has no meaning in this model. Safe: the model stops where the
  hardware goes on. No arm of this model raises it. -/
  | notModelled (mnemonic : String)
deriving DecidableEq, Repr

/-- The state right after reset (R41, R280), with nothing loaded and no input known. -/
def State.reset : State where
  v := Vector.replicate 16 0x00
  i := 0x0000
  pc := 0x0200
  stk := Vector.replicate Config.stackDepth 0x0000
  sp := 0
  dt := 0x00
  st := 0x00
  tickPend := false
  fb := Vector.replicate Config.fbHeight (Vector.replicate Config.fbWidth false)
  mem := []
  mode := .run
  cause := .none
  epc := 0x0000
  einfo := 0x0000
  wait := false
  ill := false
  events := []
  inputs := []
  cycle := 0

end Sys2Proof.Machine
end

