-- ==== Sys2Proof/Machine/Ops.lean ====
section
/-! DEFINITION. The named operations: registers, memory, the inputs of the cycle, the program-counter check, the
commit, entering HALT (a fatal fault, the stop request), the tick service, the report of an unrecognised
word, and what ends a core cycle. -/

namespace Sys2Proof.Machine

/-! ## Registers -/

/-- `VF`, the register number 15 (R23). -/
def vf : Reg := 15

/-- `V[r]` (R11, R20). -/
def getV (s : State) (r : Reg) : Byte := s.v[r]

/-- `V[r] <- b` (R11, R20). -/
def setV (s : State) (r : Reg) (b : Byte) : State := { s with v := s.v.set r.val b r.isLt }

/-! ## Memory -/

/-- `MEM[a]`: the listed byte, or the reset content of an address nothing has written (R60, R71). -/
def byteAt : Memory → Nat → Byte
  | [], a => resetByte a
  | (k, b) :: m, a => if k = a then b else byteAt m a

/-- `MEM[a] <- v`, in canonical form: a byte equal to the reset content is not listed. -/
def putByte : Memory → Nat → Byte → Memory
  | [], a, v => if v = resetByte a then [] else [(a, v)]
  | (k, b) :: m, a, v =>
    if a < k then (if v = resetByte a then (k, b) :: m else (a, v) :: (k, b) :: m)
    else if a = k then (if v = resetByte a then m else (a, v) :: m)
    else (k, b) :: putByte m a v

/-- `MemRead(a, 1)`: none where it raises `MemBounds(a)` (R63). -/
def memRead (m : Memory) (a : Nat) : Option Byte :=
  if Config.memSize ≤ a then none else some (byteAt m a)

/-- `MemWrite(a, 1, v)`: none where it raises `MemBounds(a)` (R64). -/
def memWrite (m : Memory) (a : Nat) (v : Byte) : Option Memory :=
  if Config.memSize ≤ a then none else some (putByte m a v)

/-- The highest of the `n` addresses from `a` upward. -/
def lastAddress (a n : Nat) : Nat := a + n - 1

/-- The check made before any access: `n` bytes from `a` upward lie in memory; no byte always does (R65, R201). -/
def spanFits (a n : Nat) : Bool := n == 0 || lastAddress a n < Config.memSize

/-- The `n` bytes from `a` upward, ascending (R62). -/
def bytesFrom (m : Memory) : Nat → Nat → List Byte
  | _, 0 => []
  | a, n + 1 => byteAt m a :: bytesFrom m (a + 1) n

/-- The bytes put one after another from `a` upward, ascending (R62). -/
def putBytes : Memory → Nat → List Byte → Memory
  | m, _, [] => m
  | m, a, b :: bs => putBytes (putByte m a b) (a + 1) bs

/-- `n` reads from `a` upward, all or nothing: none where the check of R65 fails. -/
def readSpan (m : Memory) (a n : Nat) : Option (List Byte) :=
  if spanFits a n then some (bytesFrom m a n) else none

/-- Writes from `a` upward, all or nothing: none where the check of R65 fails. -/
def writeSpan (m : Memory) (a : Nat) (bs : List Byte) : Option Memory :=
  if spanFits a bs.length then some (putBytes m a bs) else none

/-! ## Inputs -/

/-- The free values of core cycle `k` (U8 to U11). -/
def freeInput (k : Nat) : CycleInput where
  tickBefore := Config.freeTickBefore k
  tickDuring := Config.freeTickDuring k
  keys := Config.freeKeys k
  rnd := Config.freeRnd k
  stopReq := Config.freeStopReq k

/-- The inputs of the coming core cycle (R120): the first listed, or the free values. -/
def inputNow (s : State) : CycleInput :=
  match s.inputs with
  | [] => freeInput s.cycle
  | c :: _ => c

/-- `Keys()` (R220). -/
def keysNow (s : State) : BitVec 16 := (inputNow s).keys

/-- `Rand()` (R162). -/
def rndNow (s : State) : Byte := (inputNow s).rnd

/-- Quiet ports: no strobe, no key, `rnd` 0, no stop request. The inputs of the spec's test vectors. -/
def quietInput : CycleInput := ⟨false, false, 0x0000, 0x00, false⟩

/-! ## Entering HALT: the one exception mechanism -/

/-- `MODE <- HALT` with the recorded cause; nothing else is written (R246, R252). There is no return from it:
no instruction and no input but reset leaves HALT (R249). -/
def haltWith (s : State) (c : Cause) (epc einfo : Word) : State :=
  { s with mode := .halt, cause := c, epc := epc, einfo := einfo }

/-- Fatal-fault entry: `EPC <- PC`, the faulting instruction; `EINFO` the datum reduced to 16 bits
(R246, R241, R247). -/
def raiseFault (s : State) (c : Cause) (info : Nat) : State :=
  haltWith s c s.pc (BitVec.ofNat 16 info)

/-- `CAUSE` as the 3-bit code of R241. -/
def causeCode : Cause → BitVec 3
  | .none => 0
  | .stopRequest => 1
  | .stackOverflow => 2
  | .stackUnderflow => 3
  | .memBounds => 4
  | .pcBounds => 5

/-! ## The program counter and the commit -/

/-- The legal range of `PC`: `LOAD_BASE .. MEM_SIZE - 2` (R28, R122). -/
def pcLegal (n : Nat) : Bool := Config.loadBase ≤ n && n ≤ Config.memSize - 2

/-- `PC + 2`, as a natural number (R27, R122). -/
def nextPc (s : State) : Nat := s.pc.toNat + 2

/-- The commit, phase C of R120: `before` is the state the instruction read, `after` the same state with its
pending writes applied. A `next_pc` out of range discards the writes and raises `PcBounds` (R122);
otherwise the writes stand, `PC <- next_pc` and `WAIT <- wait'` (R224). -/
def commit (before after : State) (next : Nat) (wait : Bool) : State :=
  if pcLegal next then { after with pc := BitVec.ofNat 16 next, wait := wait }
  else raiseFault before .pcBounds next

/-- The commit of an instruction with `next_pc <- PC + 2` and `wait' <- 0`. -/
def complete (before after : State) : State := commit before after (nextPc before) false

/-! ## The phases around the instruction -/

/-- A countdown by one that never goes below zero (R260, R32). -/
def countDown (t : Byte) : Byte := if t = 0 then 0 else t - 1

/-- Whether a tick is to be serviced in this core cycle: pending, or its strobe arrives before phase T (R39, R261). -/
def tickDue (s : State) : Bool := s.tickPend || (inputNow s).tickBefore

/-- Phase T (R260), with the strobes of this cycle: a strobe that coincides with or follows the service leaves
`TICK_PEND` at 1 (R261). -/
def tickService (s : State) : State :=
  { s with
    dt := if tickDue s then countDown s.dt else s.dt
    st := if tickDue s then countDown s.st else s.st
    tickPend := (inputNow s).tickDuring }

/-- `Fetch(PC)`: the byte at `PC` is the high half (R61). -/
def fetch (s : State) : Word := wordOfBytes (byteAt s.mem s.pc.toNat) (byteAt s.mem (s.pc.toNat + 1))

/-- The report of an unrecognised word: one `ill` strobe and the sticky `ILL` (R245 a, b). -/
def reportIllegal (s : State) (op : Word) : State :=
  { s with ill := true, events := .illegalOp s.pc op :: s.events }

/-- The core cycle of an unrecognised word, phases X and C: the report, then `next_pc <- PC + 2`, `wait' <- 0`.
The report is not undone by a `PcBounds` of the same cycle (R245, R247, R248). -/
def execIllegal (op : Word) (s : State) : Host.Outcome State Fault Refusal :=
  .next (complete (reportIllegal s op) (reportIllegal s op))

/-- Phases P and Q after a commit without a fault: the `present` strobe, then the stop request (R120, R252). -/
def presentAndPoll (s : State) : State :=
  { s with
    events := .present :: s.events
    mode := if (inputNow s).stopReq then .halt else s.mode
    cause := if (inputNow s).stopReq then .stopRequest else s.cause
    epc := if (inputNow s).stopReq then s.pc else s.epc
    einfo := if (inputNow s).stopReq then 0x0000 else s.einfo }

/-- The inputs of this core cycle are used up. -/
def nextInput (s : State) : State := { s with inputs := s.inputs.tail, cycle := s.cycle + 1 }

/-- The end of a core cycle: phases P and Q, unless the commit halted the core (R120, R246). -/
def endCycle (s : State) : State :=
  match s.mode with
  | .run => nextInput (presentAndPoll s)
  | .halt => nextInput s

/-- The end of a core cycle, of an outcome. -/
def endOutcome : Host.Outcome State Fault Refusal → Host.Outcome State Fault Refusal
  | .next s => .next (endCycle s)
  | .fault f => .fault f
  | .refused r => .refused r

end Sys2Proof.Machine
end

