-- ==== Sys2Proof/Machine/Flags.lean ====
section
/-! DEFINITION. The flag computations: each gives the one bit that goes into `VF` (R23, R24), and the write of a
result and its flag in the order of R150. -/

namespace Sys2Proof.Machine

/-- A flag as the byte `VF` holds: exactly 0x00 or 0x01 (R24). -/
def flagByte (c : Bool) : Byte := if c then 0x01 else 0x00

/-- Carry out of `a + b`: the sum exceeds 255 (R157). -/
def carryOut (a b : Byte) : Bool := 255 < a.toNat + b.toNat

/-- No borrow in `a - b`: `a >= b` (R158, R160). -/
def noBorrow (a b : Byte) : Bool := b.toNat ≤ a.toNat

/-- The bit a shift right by one loses: bit 0 (R159). -/
def shiftedOutRight (b : Byte) : Bool := b.getLsbD 0

/-- The bit a shift left by one loses: bit 7 (R161). -/
def shiftedOutLeft (b : Byte) : Bool := b.getLsbD 7

/-- `(a + b) mod 256` (R152, R157). -/
def sumByte (a b : Byte) : Byte := BitVec.ofNat 8 (a.toNat + b.toNat)

/-- `(a - b) mod 256`: `a - b + 256` when `a < b` (R158, R160). -/
def diffByte (a b : Byte) : Byte := BitVec.ofNat 8 (a.toNat + 256 - b.toNat)

/-- `b div 2` (R159). -/
def halfByte (b : Byte) : Byte := BitVec.ofNat 8 (b.toNat / 2)

/-- `(b * 2) mod 256` (R161). -/
def doubleByte (b : Byte) : Byte := BitVec.ofNat 8 (b.toNat * 2)

/-- The result to `V[x]`, then the flag to `VF`, which wins when `x` is 0xF (R150). -/
def setResultAndFlag (s : State) (x : Reg) (result : Byte) (flag : Bool) : State :=
  setV (setV s x result) vf (flagByte flag)

end Sys2Proof.Machine
end

