-- ==== Sys2Proof/Machine/Alu.lean ====
section
/-! DEFINITION. Register load, arithmetic and logic (R150 to R162). Every operand is read from the state before
the instruction; the result is written to `V[x]`, then the flag, if there is one, to `VF` (R150). -/

namespace Sys2Proof.Machine

/-- `V[x] <- result`, no flag, `next_pc <- PC + 2`. -/
def writeReg (x : Reg) (result : Byte) (s : State) : Host.Outcome State Fault Refusal :=
  .next (complete s (setV s x result))

/-- `V[x] <- result`, then `VF <- flag` (R150), `next_pc <- PC + 2`. -/
def writeRegFlag (x : Reg) (result : Byte) (flag : Bool) (s : State) : Host.Outcome State Fault Refusal :=
  .next (complete s (setResultAndFlag s x result flag))

/-- `6xnn` (R151). -/
def execLdI (x : Reg) (nn : Byte) (s : State) : Host.Outcome State Fault Refusal :=
  writeReg x nn s

/-- `7xnn` (R152). -/
def execAddI (x : Reg) (nn : Byte) (s : State) : Host.Outcome State Fault Refusal :=
  writeReg x (sumByte (getV s x) nn) s

/-- `8xy0` (R153). -/
def execLdR (x y : Reg) (s : State) : Host.Outcome State Fault Refusal :=
  writeReg x (getV s y) s

/-- `8xy1` (R154). -/
def execOrR (x y : Reg) (s : State) : Host.Outcome State Fault Refusal :=
  writeReg x (getV s x ||| getV s y) s

/-- `8xy2` (R155). -/
def execAndR (x y : Reg) (s : State) : Host.Outcome State Fault Refusal :=
  writeReg x (getV s x &&& getV s y) s

/-- `8xy3` (R156). -/
def execXorR (x y : Reg) (s : State) : Host.Outcome State Fault Refusal :=
  writeReg x (getV s x ^^^ getV s y) s

/-- `8xy4` (R157). -/
def execAddR (x y : Reg) (s : State) : Host.Outcome State Fault Refusal :=
  writeRegFlag x (sumByte (getV s x) (getV s y)) (carryOut (getV s x) (getV s y)) s

/-- `8xy5` (R158). -/
def execSub (x y : Reg) (s : State) : Host.Outcome State Fault Refusal :=
  writeRegFlag x (diffByte (getV s x) (getV s y)) (noBorrow (getV s x) (getV s y)) s

/-- `8xy6` (R159): the value shifted is `V[y]`. -/
def execShr (x y : Reg) (s : State) : Host.Outcome State Fault Refusal :=
  writeRegFlag x (halfByte (getV s y)) (shiftedOutRight (getV s y)) s

/-- `8xy7` (R160). -/
def execSubn (x y : Reg) (s : State) : Host.Outcome State Fault Refusal :=
  writeRegFlag x (diffByte (getV s y) (getV s x)) (noBorrow (getV s y) (getV s x)) s

/-- `8xyE` (R161): the value shifted is `V[y]`. -/
def execShl (x y : Reg) (s : State) : Host.Outcome State Fault Refusal :=
  writeRegFlag x (doubleByte (getV s y)) (shiftedOutLeft (getV s y)) s

/-- `Cxnn` (R162): a byte under no law, sampled once, under the mask `nn`. -/
def execRnd (x : Reg) (nn : Byte) (s : State) : Host.Outcome State Fault Refusal :=
  writeReg x (rndNow s &&& nn) s

end Sys2Proof.Machine
end

