-- ==== Sys2Proof/Machine/Operands.lean ====
section
/-! DEFINITION. The operand forms: immediates widened to a register, branch targets, key numbers, the glyph
address, the decimal digits, and the bytes of a register range. -/

namespace Sys2Proof.Machine

/-- `zext_16(nnn)` (R92). -/
def zext12 (nnn : BitVec 12) : Word := nnn.setWidth 16

/-- `zext_16(b)` of a byte (R92, R181). -/
def zext8 (b : Byte) : Word := b.setWidth 16

/-- The target of `JP` and `CALL` (R124, R125). -/
def jumpTarget (nnn : BitVec 12) : Nat := nnn.toNat

/-- The target of `JP.V0`: a natural-number sum, not truncated (R126). -/
def jumpOffsetTarget (nnn : BitVec 12) (v0 : Byte) : Nat := nnn.toNat + v0.toNat

/-- `next_pc` of a skip: `PC + 4` when the condition holds, `PC + 2` when not (R27, R127). -/
def skipTarget (s : State) (cond : Bool) : Nat := if cond then s.pc.toNat + 4 else s.pc.toNat + 2

/-- The return address `CALL` pushes: `(PC + 2) mod 65536` (R125). -/
def returnAddress (s : State) : Word := s.pc + 2

/-- `v mod 16`: the key, or the glyph, that a register value names (R220, R182). -/
def lowNibble (v : Byte) : Nat := v.toNat % 16

/-- `keys[k] == 1` (R220). -/
def keyDown (keys : BitVec 16) (k : Nat) : Bool := keys.getLsbD k

/-- The least pressed key, none when no key is down (R223). -/
def lowestKey (keys : BitVec 16) : Option Nat := (List.range 16).find? (keyDown keys)

/-- The address of the glyph of a register value: `FONT_BASE + GLYPH_BYTES * d` (R182). -/
def glyphAddress (v : Byte) : Word := BitVec.ofNat 16 (fontBase + glyphBytes * lowNibble v)

/-- The decimal digits of a byte, hundreds first (R183). -/
def decimalDigits (v : Byte) : List Byte :=
  [BitVec.ofNat 8 (v.toNat / 100), BitVec.ofNat 8 (v.toNat / 10 % 10), BitVec.ofNat 8 (v.toNat % 10)]

/-- The effective address `I + k`, a natural number without wrap (R65). -/
def effectiveAddress (s : State) (k : Nat) : Nat := s.i.toNat + k

/-- How many registers `STM Vx` and `LDM Vx` transfer: `x + 1` (R184, R185). -/
def regCount (x : Reg) : Nat := x.val + 1

/-- The bytes of `V[0]`, `V[1]`, ..., `V[x]` in this order (R184). -/
def regBytes (s : State) (x : Reg) : List Byte := s.v.toList.take (regCount x)

/-- The bytes put into `V[k]`, `V[k+1]`, ... in this order (R185). -/
def loadRegs : Vector Byte 16 → Nat → List Byte → Vector Byte 16
  | v, _, [] => v
  | v, k, b :: bs => loadRegs (v.setIfInBounds k b) (k + 1) bs

end Sys2Proof.Machine
end

