-- ==== Sys2Proof/Machine/Control.lean ====
section
/-! DEFINITION. Control transfer: `RET`, `JP`, `CALL`, `JP.V0` and the skips on registers (R123 to R130). -/

namespace Sys2Proof.Machine

/-- A skip: no write, `next_pc` by the condition, `wait' <- 0` (R127 to R130, R221, R222). -/
def skipIf (cond : Bool) (s : State) : Host.Outcome State Fault Refusal :=
  .next (commit s s (skipTarget s cond) false)

/-- The entry a push writes and a pop reads: `STK[k]`, for `k < 16` (R30, R31). -/
def stackEntry (s : State) (k : Nat) : Word := if h : k < Config.stackDepth then s.stk[k] else 0

/-- `STK[SP] <- w`, `SP <- SP + 1`, for a stack that is not full (R31). -/
def push (s : State) (w : Word) : State :=
  if h : s.sp.val < Config.stackDepth then
    { s with stk := s.stk.set s.sp.val w h, sp := ⟨s.sp.val + 1, by omega⟩ }
  else s

/-- `SP <- SP - 1`; the popped entry keeps its value (R31). -/
def pop (s : State) : State := { s with sp := ⟨s.sp.val - 1, by omega⟩ }

/-- `00EE` (R123): `StackUnderflow(0)` on an empty stack, else the entry at the old `SP` minus 1. -/
def execRet (s : State) : Host.Outcome State Fault Refusal :=
  if s.sp.val = 0 then .next (raiseFault s .stackUnderflow 0)
  else .next (commit s (pop s) (stackEntry s (s.sp.val - 1)).toNat false)

/-- `1nnn` (R124). -/
def execJp (nnn : BitVec 12) (s : State) : Host.Outcome State Fault Refusal :=
  .next (commit s s (jumpTarget nnn) false)

/-- `2nnn` (R125): `StackOverflow(16)` on a full stack, checked first (R248). -/
def execCall (nnn : BitVec 12) (s : State) : Host.Outcome State Fault Refusal :=
  if s.sp.val = Config.stackDepth then .next (raiseFault s .stackOverflow s.sp.val)
  else .next (commit s (push s (returnAddress s)) (jumpTarget nnn) false)

/-- `Bnnn` (R126). -/
def execJpV0 (nnn : BitVec 12) (s : State) : Host.Outcome State Fault Refusal :=
  .next (commit s s (jumpOffsetTarget nnn (getV s 0)) false)

/-- `3xnn` (R127). -/
def execSeI (x : Reg) (nn : Byte) (s : State) : Host.Outcome State Fault Refusal :=
  skipIf (getV s x == nn) s

/-- `4xnn` (R128). -/
def execSneI (x : Reg) (nn : Byte) (s : State) : Host.Outcome State Fault Refusal :=
  skipIf (getV s x != nn) s

/-- `5xy0` (R129). -/
def execSeR (x y : Reg) (s : State) : Host.Outcome State Fault Refusal :=
  skipIf (getV s x == getV s y) s

/-- `9xy0` (R130). -/
def execSneR (x y : Reg) (s : State) : Host.Outcome State Fault Refusal :=
  skipIf (getV s x != getV s y) s

end Sys2Proof.Machine
end

