-- ==== Sys2Proof/Machine/Display.lean ====
section
/-! DEFINITION. The framebuffer write controller: `CLS` and the XOR blit of `DRW` with its collision flag (R200,
R201). The blit takes EDGE_WRAP as an argument; this hardware's value is `edgeWrap`. -/

namespace Sys2Proof.Machine

/-- `FB[r][c]`; a coordinate outside the grid reads as 0 (no rule reads one). -/
def pixelAt (fb : Framebuffer) (r c : Nat) : Bool :=
  if h : r < Config.fbHeight ∧ c < Config.fbWidth then (fb[r]'h.1)[c]'h.2 else false

/-- `FB[r][c] <- FB[r][c] ^ 1`; outside the grid nothing (no rule writes there). -/
def togglePixel (fb : Framebuffer) (r c : Nat) : Framebuffer :=
  if h : r < Config.fbHeight ∧ c < Config.fbWidth then
    fb.set r ((fb[r]'h.1).set c (!(fb[r]'h.1)[c]'h.2) h.2) h.1
  else fb

/-- The blit's pending result: the framebuffer and whether a set pixel was cleared (`hit` of R201). -/
structure Blit where
  fb  : Framebuffer
  hit : Bool
deriving DecidableEq, Repr

/-- A set pixel is about to be cleared, or a clear one is set (R201, innermost lines). -/
def plot (d : Blit) (r c : Nat) : Blit := ⟨togglePixel d.fb r c, d.hit || pixelAt d.fb r c⟩

/-- A coordinate at or past the edge wraps to the opposite edge or is clipped (R6 EDGE_WRAP, R201). -/
def atEdge (wrap : Bool) (size v : Nat) : Option Nat :=
  if v < size then some v else if wrap then some (v - size) else none

/-- Sprite column `k` of the byte `b` in row `r`: the most significant bit is the leftmost pixel (R201). -/
def blitBit (wrap : Bool) (b : Byte) (r c0 k : Nat) (d : Blit) : Blit :=
  match atEdge wrap Config.fbWidth (c0 + k) with
  | none => d
  | some c => if b.getLsbD (7 - k) then plot d r c else d

/-- The eight columns of one sprite byte, from column `k` on, `todo` of them, ascending (R201). -/
def blitBits (wrap : Bool) (b : Byte) (r c0 : Nat) : Nat → Nat → Blit → Blit
  | _, 0, d => d
  | k, todo + 1, d => blitBits wrap b r c0 (k + 1) todo (blitBit wrap b r c0 k d)

/-- Sprite rows from screen row `r` on, ascending; a row past the bottom edge wraps or is clipped (R201). -/
def blitRows (wrap : Bool) (c0 : Nat) : Nat → List Byte → Blit → Blit
  | _, [], d => d
  | r, b :: bs, d =>
    blitRows wrap c0 (r + 1) bs
      (match atEdge wrap Config.fbHeight r with
       | none => d
       | some r' => blitBits wrap b r' c0 0 8 d)

/-- The whole sprite at column `c0`, row `r0`, on an unset `hit` (R201). -/
def blitSprite (wrap : Bool) (fb : Framebuffer) (r0 c0 : Nat) (sprite : List Byte) : Blit :=
  blitRows wrap c0 r0 sprite ⟨fb, false⟩

/-- `V[x] mod 64`: the column of the sprite's left edge (R201). -/
def startColumn (v : Byte) : Nat := v.toNat % Config.fbWidth

/-- `V[y] mod 32`: the row of the sprite's top edge (R201). -/
def startRow (v : Byte) : Nat := v.toNat % Config.fbHeight

/-- The framebuffer with every cell 0 (R200). -/
def blankScreen : Framebuffer := Vector.replicate Config.fbHeight (Vector.replicate Config.fbWidth false)

/-- `00E0` (R200). -/
def execCls (s : State) : Host.Outcome State Fault Refusal :=
  .next (complete s { s with fb := blankScreen })

/-- The framebuffer and collision flag a `DRW Vx, Vy` of the given sprite bytes leaves (R201). -/
def drawAt (s : State) (x y : Reg) (sprite : List Byte) : Blit :=
  blitSprite edgeWrap s.fb (startRow (getV s y)) (startColumn (getV s x)) sprite

/-- `Dxyn` (R201): all `n` bytes are bounds-checked before anything is drawn; `VF` is always written. -/
def execDrw (x y : Reg) (n : BitVec 4) (s : State) : Host.Outcome State Fault Refusal :=
  match readSpan s.mem (effectiveAddress s 0) n.toNat with
  | none => .next (raiseFault s .memBounds (lastAddress (effectiveAddress s 0) n.toNat))
  | some sprite =>
    .next (complete s (setV { s with fb := (drawAt s x y sprite).fb } vf (flagByte (drawAt s x y sprite).hit)))

end Sys2Proof.Machine
end

