-- ==== Sys2Proof/Machine/Index.lean ====
section
/-! DEFINITION. The index register and the transfers through it (R180 to R185). -/

namespace Sys2Proof.Machine

/-- `I <- w`, `next_pc <- PC + 2`. -/
def writeIndex (w : Word) (s : State) : Host.Outcome State Fault Refusal :=
  .next (complete s { s with i := w })

/-- Bytes stored from `I` upward, all or nothing: `MemBounds` with the highest address when they do not fit
(R65, R183, R184). -/
def storeAtIndex (bs : List Byte) (s : State) : Host.Outcome State Fault Refusal :=
  match writeSpan s.mem (effectiveAddress s 0) bs with
  | none => .next (raiseFault s .memBounds (lastAddress (effectiveAddress s 0) bs.length))
  | some m => .next (complete s { s with mem := m })

/-- `Annn` (R180). -/
def execLdIdx (nnn : BitVec 12) (s : State) : Host.Outcome State Fault Refusal :=
  writeIndex (zext12 nnn) s

/-- `Fx1E` (R181): `(I + V[x]) mod 65536`, no flag. -/
def execAddIdx (x : Reg) (s : State) : Host.Outcome State Fault Refusal :=
  writeIndex (s.i + zext8 (getV s x)) s

/-- `Fx29` (R182). -/
def execLdFont (x : Reg) (s : State) : Host.Outcome State Fault Refusal :=
  writeIndex (glyphAddress (getV s x)) s

/-- `Fx33` (R183). -/
def execBcd (x : Reg) (s : State) : Host.Outcome State Fault Refusal :=
  storeAtIndex (decimalDigits (getV s x)) s

/-- `Fx55` (R184). -/
def execStm (x : Reg) (s : State) : Host.Outcome State Fault Refusal :=
  storeAtIndex (regBytes s x) s

/-- `Fx65` (R185). -/
def execLdm (x : Reg) (s : State) : Host.Outcome State Fault Refusal :=
  match readSpan s.mem (effectiveAddress s 0) (regCount x) with
  | none => .next (raiseFault s .memBounds (lastAddress (effectiveAddress s 0) (regCount x)))
  | some bs => .next (complete s { s with v := loadRegs s.v 0 bs })

end Sys2Proof.Machine
end

