-- ==== Sys2Proof/Machine/KeyTimer.lean ====
section
/-! DEFINITION. Keypad and timers (R220 to R227). -/

namespace Sys2Proof.Machine

/-- `Ex9E` (R221). -/
def execSkp (x : Reg) (s : State) : Host.Outcome State Fault Refusal :=
  skipIf (keyDown (keysNow s) (lowNibble (getV s x))) s

/-- `ExA1` (R222). -/
def execSknp (x : Reg) (s : State) : Host.Outcome State Fault Refusal :=
  skipIf (!keyDown (keysNow s) (lowNibble (getV s x))) s

/-- What `Fx0A` does with the sampled key: with none down `next_pc <- PC` and `wait' <- 1`; else the key's code
to `V[x]`, `next_pc <- PC + 2` and `wait' <- 0` (R223). -/
def keyOrWait (x : Reg) (s : State) : Option Nat → State
  | none => commit s s s.pc.toNat true
  | some k => complete s (setV s x (BitVec.ofNat 8 k))

/-- `Fx0A` (R223): the least pressed key, or one more cycle of waiting. -/
def execLdKey (x : Reg) (s : State) : Host.Outcome State Fault Refusal :=
  .next (keyOrWait x s (lowestKey (keysNow s)))

/-- `Fx07` (R225). -/
def execLdRdt (x : Reg) (s : State) : Host.Outcome State Fault Refusal :=
  writeReg x s.dt s

/-- `Fx15` (R226). -/
def execLdWdt (x : Reg) (s : State) : Host.Outcome State Fault Refusal :=
  .next (complete s { s with dt := getV s x })

/-- `Fx18` (R227). -/
def execLdWst (x : Reg) (s : State) : Host.Outcome State Fault Refusal :=
  .next (complete s { s with st := getV s x })

end Sys2Proof.Machine
end

