-- ==== Sys2Proof/Machine/Step.lean ====
section
/-! DEFINITION. The step of the machine: one core cycle (R120), and how one instruction is placed where the next
fetch reads it. -/

namespace Sys2Proof.Machine

/-- One core cycle (R120): phases T, F, D, then X and C by `exec` (or the report of an unrecognised word),
then P and Q. In HALT there is no step; a running core with `PC` out of its range does not exist (R28). -/
def step (s : State) : Host.Outcome State Fault Refusal :=
  match s.mode with
  | .halt => .fault .halted
  | .run =>
    if pcLegal s.pc.toNat then
      match decode (fetch (tickService s)) with
      | .ok i => endOutcome (exec i (tickService s))
      | .error _ => endOutcome (execIllegal (fetch (tickService s)) (tickService s))
    else .fault .pcOutOfRange

/-- `s` with an instruction of the opcode table stored at `PC`, high byte first (R61): the load of one
instruction from outside the machine (log entry 5). -/
def State.withFetchWord (s : State) (nbits w : Nat) : State :=
  { s with mem := putBytes s.mem s.pc.toNat (tableWordBytes nbits w) }

end Sys2Proof.Machine
end

