-- ==== Sys2Proof/Machine/Ports.lean ====
section
/-! DEFINITION. What the outside sees and does beside the core cycle (R8): the output ports as functions of the
state, reset, the loader port, and a tick strobe between two core cycles. -/

namespace Sys2Proof.Machine

/-- `sound_on = (ST != 0)` (R8, R32). -/
def soundOn (s : State) : Bool := s.st != 0

/-- `halted = (MODE == HALT)` (R8). -/
def haltedPort (s : State) : Bool := s.mode == .halt

/-- `cause[2:0]` (R8, R241). -/
def causePort (s : State) : BitVec 3 := causeCode s.cause

/-- `epc[15:0]` (R8, R36). -/
def epcPort (s : State) : Word := s.epc

/-- `einfo[15:0]` (R8, R36). -/
def einfoPort (s : State) : Word := s.einfo

/-- `waiting` (R8, R37). -/
def waitingPort (s : State) : Bool := s.wait

/-- `fb_q = FB[fb_y][fb_x]` (R8, R33). -/
def fbPort (s : State) (x : BitVec 6) (y : BitVec 5) : Bool := pixelAt s.fb y.toNat x.toNat

/-- Whether the core cycle that led to this state strobed `present` (R8, R120 phase P). A cycle that ended in a
fatal fault did not (R246) and added no event of its own, so there the history shows an earlier cycle's strobe;
a core that runs, or that the stop request halted, strobed it last; none has yet right after reset. -/
def presentStrobed (s : State) : Bool :=
  match s.mode with
  | .run => s.events.head? == some .present
  | .halt => s.cause == .stopRequest && s.events.head? == some .present

/-- The `ill` strobes so far, newest first: each with `ill_pc` and `ill_op` (R8, R245). -/
def illReports (s : State) : List (Word × Word) :=
  s.events.filterMap fun e => match e with
    | .illegalOp pc op => some (pc, op)
    | .present => none

/-- A `tick60` strobe between two core cycles: `TICK_PEND <- 1`, without effect in HALT (R261). The strobes of
a run reach `step` through its inputs (`tickBefore`, `tickDuring`); this is the same event as an agent's own
step. -/
def tickStrobe (s : State) : State :=
  match s.mode with
  | .run => { s with tickPend := true }
  | .halt => s

/-- While `rst` is asserted every piece of state holds its reset value; only the loader changes `MEM` (R280,
R281). The numbering of the free inputs goes on: reset tells nothing about the ports (R285). -/
def heldInReset (s : State) (m : Memory) : State :=
  { State.reset with mem := m, inputs := s.inputs, cycle := s.cycle }

/-- Asserting `rst`, in any mode: the one way out of HALT (R249, R280, R281). -/
def assertReset (s : State) : State := heldInReset s []

/-- One write of the loader port, `ld_we` with `ld_addr` and `ld_data`, while `rst` is asserted (R8, R284); any
address is accepted ("if it writes below, the core does not object"). -/
def loaderWrite (m : Memory) (addr : Word) (data : Byte) : Memory := putByte m addr.toNat data

/-- The longest program image: `MEM_SIZE - LOAD_BASE = 65024` bytes (R284). -/
def maxImage : Nat := Config.memSize - Config.loadBase

/-- Reset with a program image loaded byte for byte from `LOAD_BASE` up; none for an image that does not fit,
with which the core is never started (R284, U16). -/
def bootWith (s : State) (image : List Byte) : Option State :=
  if image.length ≤ maxImage then some (heldInReset s (putBytes [] Config.loadBase image)) else none

end Sys2Proof.Machine
end

