-- ==== Sys2Proof/Safety.lean ====
section
/-! DEFINITION. What counts as a good state and a good run: the invariant of the core's states, the end of a run,
and a run without faults and without reports. -/

namespace Sys2Proof.Machine

/-- `PC` is in 0x0200..0xFFFE (R28). -/
def PcInRange (s : State) : Prop := 0x200 ≤ s.pc.toNat ∧ s.pc.toNat ≤ 0xFFFE

/-- `PC` is in range and so is the word after the instruction: an instruction with `next_pc <- PC + 2` completes
without `PcBounds` (R122). -/
def NextInRange (s : State) : Prop := 0x200 ≤ s.pc.toNat ∧ s.pc.toNat + 2 ≤ 0xFFFE

/-- `PC` is in range and so is the word after the next: a skip completes without `PcBounds`, taken or not (R127). -/
def SkipInRange (s : State) : Prop := 0x200 ≤ s.pc.toNat ∧ s.pc.toNat + 4 ≤ 0xFFFE

/-- The `ill` strobe of R245, among the events. -/
def isIllReport : Event → Bool
  | .illegalOp _ _ => true
  | .present => false

/-- No unrecognised word was executed since reset: "no IllegalOp reported" (R245). -/
def NoIllegalOp (s : State) : Prop := s.events.any isIllReport = false

/-- The halt registers agree with the mode (R35, R36, R241, R246, R252): `CAUSE`, `EPC`, `EINFO` are 0 while the
core runs; in HALT a cause is recorded, `EPC` equals `PC`, and `EINFO` is the datum of that cause. -/
def HaltRecord (s : State) : Prop :=
  match s.mode with
  | .run => s.cause = .none ∧ s.epc = 0 ∧ s.einfo = 0
  | .halt => s.epc = s.pc ∧
    match s.cause with
    | .none => False
    | .stopRequest => s.einfo = 0
    | .stackOverflow => s.einfo = 16 ∧ s.sp.val = 16
    | .stackUnderflow => s.einfo = 0 ∧ s.sp.val = 0
    | .memBounds => s.einfo.toNat < 15
    | .pcBounds => s.einfo.toNat < 0x200 ∨ s.einfo.toNat = 0xFFFF

/-- `WAIT` is 1 only on a core that still points at its `Fx0A` (R37, R223). -/
def WaitAtKey (s : State) : Prop := s.wait = true → ∃ x, decode (fetch s) = .ok (.ldKey x)

/-- `ILL` is set exactly when an unrecognised word was reported since reset (R38, R245). -/
def IllSticky (s : State) : Prop := s.ill = s.events.any isIllReport

/-- The invariant of the core's states. -/
structure Inv (s : State) : Prop where
  memory : s.mem.wf = true
  pc : PcInRange s
  halt : HaltRecord s
  waiting : WaitAtKey s
  ill : IllSticky s

/-- The end of a run: the first state with `MODE == HALT` (R256). -/
def Ended (s : State) : Prop := s.mode = .halt

/-- A clean end: the host asked to stop (R254, R256). -/
def CleanEnd (s : State) : Prop := s.mode = .halt ∧ s.cause = .stopRequest

/-- The surrounding software's exit status is zero exactly for `CAUSE == 1` (R254); none while the core runs. -/
def exitsZero (s : State) : Option Bool :=
  match s.mode with
  | .run => none
  | .halt => some (s.cause == .stopRequest)

/-- A state is free of fatal faults: it runs, or it was stopped by the host (R246, R256). -/
def NoFatalFault (s : State) : Prop := s.mode = .halt → s.cause = .stopRequest

/-- What a safe run must hold in each of its states: no fatal fault, no report (R245, R256). -/
def Safe (s : State) : Prop := NoFatalFault s ∧ NoIllegalOp s

/-- A state is reached from another by core cycles. -/
inductive Reaches : State → State → Prop where
  | refl (s : State) : Reaches s s
  | tail {s t u : State} : Reaches s t → step t = .next u → Reaches s u

end Sys2Proof.Machine
end

