-- ==== Sys2Proof/Certificates/Slice0/Obligations.lean ====
section
/-! DEFINITION. The statements for the provers: what the numbered rules of spec/ say the core does. The helpers
under Sys2Proof.Claims say in the rules' own terms what the statements compare the machine with. -/

open Sys2Proof Sys2Proof.Machine

namespace Sys2Proof.Claims

/-- A core halted by a fatal fault: the halt registers as R246 and R241 say, everything else as it was. -/
def haltedBy (s : State) (c : Cause) (info : Nat) : State :=
  { s with mode := .halt, cause := c, epc := s.pc, einfo := BitVec.ofNat 16 info }

/-- An instruction whose `next_pc` is `PC + 2`, whose pending writes turn `s` into `w`, and which has no fault of
its own: it completes with those writes, `PC + 2` and `WAIT = 0`; standing at the top of memory it raises
`PcBounds` and writes nothing (R120, R122, R224). -/
def GoesOn (i : Instr) (s w : State) : Prop :=
  (NextInRange s → exec i s = .next { w with pc := s.pc + 2, wait := false }) ∧
  (0xFFFE < s.pc.toNat + 2 → exec i s = .next (haltedBy s .pcBounds (s.pc.toNat + 2)))

/-- An instruction that only sets `PC`: to `target` when that is a legal address, else `PcBounds` (R122). -/
def JumpsTo (i : Instr) (s : State) (target : Nat) : Prop :=
  (0x200 ≤ target → target ≤ 0xFFFE →
    exec i s = .next { s with pc := BitVec.ofNat 16 target, wait := false }) ∧
  (target < 0x200 ∨ 0xFFFE < target → exec i s = .next (haltedBy s .pcBounds target))

/-- A skip: `PC + 4` when the condition holds, `PC + 2` when it does not (R127); `PcBounds` past the top. -/
def SkipsWhen (i : Instr) (s : State) (cond : Bool) : Prop :=
  (SkipInRange s → exec i s = .next { s with pc := if cond then s.pc + 4 else s.pc + 2, wait := false }) ∧
  (NextInRange s → cond = false → exec i s = .next { s with pc := s.pc + 2, wait := false }) ∧
  (cond = true → 0xFFFE < s.pc.toNat + 4 → exec i s = .next (haltedBy s .pcBounds (s.pc.toNat + 4))) ∧
  (cond = false → 0xFFFE < s.pc.toNat + 2 → exec i s = .next (haltedBy s .pcBounds (s.pc.toNat + 2)))

/-- The flag byte: 1 or 0 (R24). -/
def bit (c : Bool) : Byte := if c then 1 else 0

/-- An instruction's own fault condition (R241: raised by, when). -/
def ownFault : Instr → State → Bool
  | .call _, s => s.sp.val = 16
  | .ret, s => s.sp.val = 0
  | .drw _ _ n, s => 0 < n.toNat && 65536 ≤ s.i.toNat + n.toNat - 1
  | .bcd _, s => 65536 ≤ s.i.toNat + 2
  | .stm x, s => 65536 ≤ s.i.toNat + x.val
  | .ldm x, s => 65536 ≤ s.i.toNat + x.val
  | .cls, _ | .jp _, _ | .seI _ _, _ | .sneI _ _, _ | .seR _ _, _ | .ldI _ _, _ | .addI _ _, _ => false
  | .ldR _ _, _ | .orR _ _, _ | .andR _ _, _ | .xorR _ _, _ | .addR _ _, _ | .sub _ _, _ | .shr _ _, _ => false
  | .subn _ _, _ | .shl _ _, _ | .sneR _ _, _ | .ldIdx _, _ | .jpV0 _, _ | .rnd _ _, _ | .skp _, _ => false
  | .sknp _, _ | .ldRdt _, _ | .ldKey _, _ | .ldWdt _, _ | .ldWst _, _ | .addIdx _, _ | .ldFont _, _ => false

/-- The `CAUSE` and the datum an instruction's own fault records (R241). -/
def ownCause : Instr → State → Cause × Nat
  | .call _, _ => (.stackOverflow, 16)
  | .ret, _ => (.stackUnderflow, 0)
  | .drw _ _ n, s => (.memBounds, s.i.toNat + n.toNat - 1)
  | .bcd _, s => (.memBounds, s.i.toNat + 2)
  | .stm x, s => (.memBounds, s.i.toNat + x.val)
  | .ldm x, s => (.memBounds, s.i.toNat + x.val)
  | .cls, _ | .jp _, _ | .seI _ _, _ | .sneI _ _, _ | .seR _ _, _ | .ldI _ _, _ | .addI _ _, _ => (.none, 0)
  | .ldR _ _, _ | .orR _ _, _ | .andR _ _, _ | .xorR _ _, _ | .addR _ _, _ | .sub _ _, _ | .shr _ _, _ => (.none, 0)
  | .subn _ _, _ | .shl _ _, _ | .sneR _ _, _ | .ldIdx _, _ | .jpV0 _, _ | .rnd _ _, _ | .skp _, _ => (.none, 0)
  | .sknp _, _ | .ldRdt _, _ | .ldKey _, _ | .ldWdt _, _ | .ldWst _, _ | .addIdx _, _ | .ldFont _, _ => (.none, 0)

/-- `PC + 2`, or `PC + 4` where a skip's condition holds (R27). -/
def skipped (s : State) (cond : Bool) : Nat := if cond then s.pc.toNat + 4 else s.pc.toNat + 2

/-- `next_pc` of every instruction, as a natural number (R27, R131). -/
def ruleNext : Instr → State → Nat
  | .jp nnn, _ => nnn.toNat
  | .call nnn, _ => nnn.toNat
  | .ret, s => (s.stk.toList.getD (s.sp.val - 1) 0).toNat
  | .jpV0 nnn, s => nnn.toNat + (getV s 0).toNat
  | .seI x nn, s => skipped s (getV s x == nn)
  | .sneI x nn, s => skipped s (getV s x != nn)
  | .seR x y, s => skipped s (getV s x == getV s y)
  | .sneR x y, s => skipped s (getV s x != getV s y)
  | .skp x, s => skipped s ((inputNow s).keys.getLsbD ((getV s x).toNat % 16))
  | .sknp x, s => skipped s (!(inputNow s).keys.getLsbD ((getV s x).toNat % 16))
  | .ldKey _, s => if (inputNow s).keys = 0 then s.pc.toNat else s.pc.toNat + 2
  | .cls, s | .ldI _ _, s | .addI _ _, s | .ldR _ _, s | .orR _ _, s | .andR _ _, s => s.pc.toNat + 2
  | .xorR _ _, s | .addR _ _, s | .sub _ _, s | .shr _ _, s | .subn _ _, s | .shl _ _, s => s.pc.toNat + 2
  | .ldIdx _, s | .rnd _ _, s | .drw _ _ _, s | .ldRdt _, s | .ldWdt _, s | .ldWst _, s => s.pc.toNat + 2
  | .addIdx _, s | .ldFont _, s | .bcd _, s | .stm _, s | .ldm _, s => s.pc.toNat + 2

/-- Whether an instruction may write general register `r`: its destination `x`, `VF` for the flag writers and
`DRW`, the registers up to `x` for `LDM` (R22, R24, R42). -/
def mayWrite : Instr → Reg → Bool
  | .ldI x _, r | .addI x _, r | .ldR x _, r | .orR x _, r | .andR x _, r | .xorR x _, r => r = x
  | .rnd x _, r | .ldRdt x, r | .ldKey x, r => r = x
  | .addR x _, r | .sub x _, r | .shr x _, r | .subn x _, r | .shl x _, r => r = x || r = 15
  | .drw _ _ _, r => r = 15
  | .ldm x, r => r ≤ x
  | .cls, _ | .ret, _ | .jp _, _ | .call _, _ | .seI _ _, _ | .sneI _ _, _ | .seR _ _, _ | .sneR _ _, _ => false
  | .ldIdx _, _ | .jpV0 _, _ | .skp _, _ | .sknp _, _ | .ldWdt _, _ | .ldWst _, _ | .addIdx _, _ => false
  | .ldFont _, _ | .bcd _, _ | .stm _, _ => false

/-- Whether an instruction samples `keys` (R220). -/
def readsKeys : Instr → Bool
  | .skp _ | .sknp _ | .ldKey _ => true
  | .cls | .ret | .jp _ | .call _ | .seI _ _ | .sneI _ _ | .seR _ _ | .ldI _ _ | .addI _ _ | .ldR _ _ => false
  | .orR _ _ | .andR _ _ | .xorR _ _ | .addR _ _ | .sub _ _ | .shr _ _ | .subn _ _ | .shl _ _ => false
  | .sneR _ _ | .ldIdx _ | .jpV0 _ | .rnd _ _ | .drw _ _ _ | .ldRdt _ | .ldWdt _ | .ldWst _ => false
  | .addIdx _ | .ldFont _ | .bcd _ | .stm _ | .ldm _ => false

/-- Whether an instruction samples `rnd` (R162). -/
def readsRnd : Instr → Bool
  | .rnd _ _ => true
  | .cls | .ret | .jp _ | .call _ | .seI _ _ | .sneI _ _ | .seR _ _ | .ldI _ _ | .addI _ _ | .ldR _ _ => false
  | .orR _ _ | .andR _ _ | .xorR _ _ | .addR _ _ | .sub _ _ | .shr _ _ | .subn _ _ | .shl _ _ => false
  | .sneR _ _ | .ldIdx _ | .jpV0 _ | .drw _ _ _ | .skp _ | .sknp _ | .ldRdt _ | .ldKey _ | .ldWdt _ => false
  | .ldWst _ | .addIdx _ | .ldFont _ | .bcd _ | .stm _ | .ldm _ => false

/-- The input ports replaced, everything else kept. -/
def withPorts (s : State) (inputs : List CycleInput) (cycle : Nat) : State :=
  { s with inputs := inputs, cycle := cycle }

/-- A timer after this cycle's tick service: down by one, never below zero, if a tick is pending (R260, R261). -/
def serviced (s : State) (t : Byte) : Byte :=
  if s.tickPend || (inputNow s).tickBefore then (if t = 0 then 0 else t - 1) else t

/-- Sprite bit `(j, k)` lands on the pixel in row `r`, column `c`, and is 1: the sprite has `n` rows at row `r0`,
column `c0`; the most significant bit is leftmost; past an edge it is clipped, or wraps under EDGE_WRAP (R201). -/
def Lit (wrap : Bool) (r0 c0 n : Nat) (sprite : Nat → Byte) (r c : Nat) : Prop :=
  ∃ j k, j < n ∧ k < 8 ∧ (sprite j).getLsbD (7 - k) = true ∧
    (r0 + j = r ∨ (wrap = true ∧ r0 + j = r + 32)) ∧ (c0 + k = c ∨ (wrap = true ∧ c0 + k = c + 64))

/-- The sprite bytes `MEM[I..I+n)` (R201). -/
def spriteOf (s : State) (j : Nat) : Byte := byteAt s.mem (s.i.toNat + j)

end Sys2Proof.Claims

open Sys2Proof.Claims

/-! ## Encoding -/

/-- Decoding the encoding of any instruction gives it back, as a word and as bytes in memory order (R95, R61).
Every instruction is well-formed (R101), so no premise is needed. -/
def Obligations.DecodeOfEncode : Prop :=
  ∀ (i : Instr) (rest : List Byte),
    decode (encode i) = .ok i ∧ decodeBytes (encodeBytes i ++ rest) = .ok (i, rest)

/-- A word is the instruction of a row exactly when `(op & mask) == match` (R95); in particular no two rows
overlap (R94). -/
def Obligations.WordMatchesRowExactly : Prop :=
  ∀ (op : Word) (r : Row), (∃ i, decode op = .ok i ∧ i.row = r) ↔ op &&& r.mask = r.pattern

/-- The unrecognised words are exactly those of R96, R97, R98; every other word is an instruction (R100). That
none of classes 5 and 9 is among them is a choice of the spec (D24, log entry 10). -/
def Obligations.UnrecognisedWordsExactly : Prop :=
  ∀ op : Word, (∃ e, decode op = .error e) ↔
    (classField op = 0x0 ∧ nnnField op ≠ 0x0E0 ∧ nnnField op ≠ 0x0EE) ∨
    (classField op = 0x8 ∧ nField op ∈ [0x8, 0x9, 0xA, 0xB, 0xC, 0xD, 0xF]) ∨
    (classField op = 0xE ∧ nnField op ∉ [0x9E, 0xA1]) ∨
    (classField op = 0xF ∧ nnField op ∉ [0x07, 0x0A, 0x15, 0x18, 0x1E, 0x29, 0x33, 0x55, 0x65])

/-- One word of each format, written out from the opcode map (R93, R95), and words with an ignored low nibble
(R99) decode to the instructions they stand for. That the low nibble of classes 5 and 9 is ignored is a choice
of the spec (D24, "This spec takes the literal reading"; log entry 10). -/
def Obligations.SampleWordsDecode : Prop :=
  decode 0x00E0 = .ok .cls ∧ decode 0x1ABC = .ok (.jp 0xABC) ∧ decode 0x3A42 = .ok (.seI 10 0x42) ∧
  decode 0x8124 = .ok (.addR 1 2) ∧ decode 0xD015 = .ok (.drw 0 1 5) ∧ decode 0xF30A = .ok (.ldKey 3) ∧
  decode 0x5337 = .ok (.seR 3 3) ∧ decode 0x9ABF = .ok (.sneR 10 11) ∧
  decode 0x0000 = .error .class0 ∧ decode 0x812F = .error .class8 ∧ decode 0xE1A0 = .error .classE ∧
  decode 0xF1FF = .error .classF

/-- The word of an instruction's line of assembly, built as R108 says from the row's `match`, is the word the
layouts of R93 give. -/
def Obligations.AssemblyAgreesWithEncoding : Prop :=
  ∀ i : Instr, assemble i.toAsm = some (encode i)

/-- A line of assembly assembles exactly when it is the line of an instruction: every ill-formed line is refused
(R108, R92). What a line is, and that an ill-formed one is refused, is the model's choice (log entry 15). -/
def Obligations.AssemblesExactlyTheInstructions : Prop :=
  ∀ l : AsmLine, (∃ w, assemble l = some w) ↔ ∃ i : Instr, i.toAsm = l

/-! ## Load, arithmetic and logic -/

/-- `6xnn` and `8xy0`: `V[x]` takes the immediate, or `V[y]` (R151, R153). -/
def Obligations.LoadAndCopyRegister : Prop :=
  (∀ op : Word, classField op = 0x6 → decode op = .ok (.ldI (xField op) (nnField op))) ∧
  (∀ op : Word, classField op = 0x8 → nField op = 0x0 → decode op = .ok (.ldR (xField op) (yField op))) ∧
  (∀ (x : Reg) (nn : Byte) (s : State), GoesOn (.ldI x nn) s (setV s x nn)) ∧
  (∀ (x y : Reg) (s : State), GoesOn (.ldR x y) s (setV s x (getV s y)))

/-- `7xnn`: `(V[x] + nn) mod 256`, no flag written (R152). -/
def Obligations.AddImmediateWraps : Prop :=
  (∀ op : Word, classField op = 0x7 → decode op = .ok (.addI (xField op) (nnField op))) ∧
  (∀ (x : Reg) (nn : Byte) (s : State),
    GoesOn (.addI x nn) s (setV s x (BitVec.ofNat 8 (((getV s x).toNat + nn.toNat) % 256))))

/-- `8xy1`, `8xy2`, `8xy3`: bitwise on `V[x]` and `V[y]`, no flag written (R154, R155, R156). -/
def Obligations.BitwiseOperations : Prop :=
  (∀ op : Word, classField op = 0x8 → nField op = 0x1 → decode op = .ok (.orR (xField op) (yField op))) ∧
  (∀ op : Word, classField op = 0x8 → nField op = 0x2 → decode op = .ok (.andR (xField op) (yField op))) ∧
  (∀ op : Word, classField op = 0x8 → nField op = 0x3 → decode op = .ok (.xorR (xField op) (yField op))) ∧
  (∀ (x y : Reg) (s : State), GoesOn (.orR x y) s (setV s x (getV s x ||| getV s y))) ∧
  (∀ (x y : Reg) (s : State), GoesOn (.andR x y) s (setV s x (getV s x &&& getV s y))) ∧
  (∀ (x y : Reg) (s : State), GoesOn (.xorR x y) s (setV s x (getV s x ^^^ getV s y)))

/-- `8xy4`: the sum mod 256 to `V[x]`, then the carry out to `VF`, operands read first (R157, R150). -/
def Obligations.AddWithCarryOut : Prop :=
  (∀ op : Word, classField op = 0x8 → nField op = 0x4 → decode op = .ok (.addR (xField op) (yField op))) ∧
  (∀ (x y : Reg) (s : State),
    GoesOn (.addR x y) s
      (setV (setV s x (BitVec.ofNat 8 (((getV s x).toNat + (getV s y).toNat) % 256))) 15
        (bit (255 < (getV s x).toNat + (getV s y).toNat))))

/-- `8xy5` and `8xy7`: the difference mod 256 to `V[x]`, then "no borrow" to `VF` (R158, R160). -/
def Obligations.SubtractWithNoBorrowFlag : Prop :=
  (∀ op : Word, classField op = 0x8 → nField op = 0x5 → decode op = .ok (.sub (xField op) (yField op))) ∧
  (∀ op : Word, classField op = 0x8 → nField op = 0x7 → decode op = .ok (.subn (xField op) (yField op))) ∧
  (∀ (x y : Reg) (s : State),
    GoesOn (.sub x y) s
      (setV (setV s x (BitVec.ofInt 8 ((getV s x).toNat - (getV s y).toNat))) 15
        (bit ((getV s y).toNat ≤ (getV s x).toNat)))) ∧
  (∀ (x y : Reg) (s : State),
    GoesOn (.subn x y) s
      (setV (setV s x (BitVec.ofInt 8 ((getV s y).toNat - (getV s x).toNat))) 15
        (bit ((getV s x).toNat ≤ (getV s y).toNat))))

/-- `8xy6` and `8xyE`: `V[y]` shifted by one to `V[x]`, then the bit shifted out to `VF` (R159, R161). -/
def Obligations.ShiftByOne : Prop :=
  (∀ op : Word, classField op = 0x8 → nField op = 0x6 → decode op = .ok (.shr (xField op) (yField op))) ∧
  (∀ op : Word, classField op = 0x8 → nField op = 0xE → decode op = .ok (.shl (xField op) (yField op))) ∧
  (∀ (x y : Reg) (s : State),
    GoesOn (.shr x y) s (setV (setV s x (getV s y >>> 1)) 15 (bit ((getV s y).toNat % 2 = 1)))) ∧
  (∀ (x y : Reg) (s : State),
    GoesOn (.shl x y) s (setV (setV s x (getV s y <<< 1)) 15 (bit (128 ≤ (getV s y).toNat))))

/-- `Cxnn`: the byte on `rnd`, whatever it is, ANDed with `nn` (R162). -/
def Obligations.RandomByteUnderMask : Prop :=
  (∀ op : Word, classField op = 0xC → decode op = .ok (.rnd (xField op) (nnField op))) ∧
  (∀ (x : Reg) (nn : Byte) (s : State), GoesOn (.rnd x nn) s (setV s x ((inputNow s).rnd &&& nn)))

/-- The arithmetic laws of R163 on the results of whole instructions, for `x` other than 0xF: carry, borrow and
shifted-out bit account exactly for what the 8-bit result lost. -/
def Obligations.FlagsAccountForLostBits : Prop :=
  ∀ (x y : Reg) (s t : State), x ≠ 15 → NextInRange s →
    (exec (.addR x y) s = .next t →
      (getV t x).toNat + 256 * (getV t 15).toNat = (getV s x).toNat + (getV s y).toNat) ∧
    (exec (.sub x y) s = .next t →
      (getV t x).toNat + (getV s y).toNat + 256 * (getV t 15).toNat = (getV s x).toNat + 256) ∧
    (exec (.subn x y) s = .next t →
      (getV t x).toNat + (getV s x).toNat + 256 * (getV t 15).toNat = (getV s y).toNat + 256) ∧
    (exec (.shr x y) s = .next t → 2 * (getV t x).toNat + (getV t 15).toNat = (getV s y).toNat) ∧
    (exec (.shl x y) s = .next t → (getV t x).toNat + 256 * (getV t 15).toNat = 2 * (getV s y).toNat)

/-! ## Control transfer -/

/-- `1nnn` and `Bnnn`: the target is `nnn`, or `nnn + V[0]` without truncation (R124, R126). -/
def Obligations.JumpTargets : Prop :=
  (∀ op : Word, classField op = 0x1 → decode op = .ok (.jp (nnnField op))) ∧
  (∀ op : Word, classField op = 0xB → decode op = .ok (.jpV0 (nnnField op))) ∧
  (∀ (nnn : BitVec 12) (s : State), JumpsTo (.jp nnn) s nnn.toNat) ∧
  (∀ (nnn : BitVec 12) (s : State), JumpsTo (.jpV0 nnn) s (nnn.toNat + (getV s 0).toNat))

/-- `2nnn`: pushes `(PC + 2) mod 65536` and jumps; a full stack is a `StackOverflow`, checked first; a target
below 0x200 pushes nothing (R125). -/
def Obligations.CallPushesReturnAddress : Prop :=
  (∀ op : Word, classField op = 0x2 → decode op = .ok (.call (nnnField op))) ∧
  (∀ (nnn : BitVec 12) (s : State) (h : s.sp.val < 16), 0x200 ≤ nnn.toNat →
    exec (.call nnn) s = .next { s with
      stk := s.stk.set s.sp.val (s.pc + 2) h
      sp := ⟨s.sp.val + 1, by simp only [Config.stackDepth]; omega⟩
      pc := BitVec.ofNat 16 nnn.toNat
      wait := false }) ∧
  (∀ (nnn : BitVec 12) (s : State), s.sp.val = 16 → exec (.call nnn) s = .next (haltedBy s .stackOverflow 16)) ∧
  (∀ (nnn : BitVec 12) (s : State), s.sp.val < 16 → nnn.toNat < 0x200 →
    exec (.call nnn) s = .next (haltedBy s .pcBounds nnn.toNat))

/-- `00EE`: pops into `PC`; an empty stack is a `StackUnderflow`; a popped address out of range leaves `SP` as it
was (R123). -/
def Obligations.ReturnPopsIntoPc : Prop :=
  decode 0x00EE = .ok .ret ∧
  (∀ (s : State) (h : 0 < s.sp.val) (hk : s.sp.val - 1 < 16),
    0x200 ≤ (s.stk[s.sp.val - 1]).toNat → (s.stk[s.sp.val - 1]).toNat ≤ 0xFFFE →
    exec .ret s = .next { s with
      sp := ⟨s.sp.val - 1, by omega⟩
      pc := s.stk[s.sp.val - 1]
      wait := false }) ∧
  (∀ s : State, s.sp.val = 0 → exec .ret s = .next (haltedBy s .stackUnderflow 0)) ∧
  (∀ (s : State) (h : 0 < s.sp.val) (hk : s.sp.val - 1 < 16),
    (s.stk[s.sp.val - 1]).toNat < 0x200 ∨ 0xFFFE < (s.stk[s.sp.val - 1]).toNat →
    exec .ret s = .next (haltedBy s .pcBounds (s.stk[s.sp.val - 1]).toNat))

/-- "Call/return round-trip" (R123): after a completed `CALL`, a `RET` executed anywhere with the stack as the call
left it goes to the instruction after the call, with the stack pointer as before the call. -/
def Obligations.CallReturnRoundTrip : Prop :=
  ∀ (nnn : BitVec 12) (s t r : State), s.sp.val < 16 → 0x200 ≤ nnn.toNat → NextInRange s →
    exec (.call nnn) s = .next t → r.stk = t.stk → r.sp = t.sp →
    ∃ u, exec .ret r = .next u ∧ u.pc = s.pc + 2 ∧ u.sp = s.sp ∧ u.v = r.v ∧ u.mem = r.mem

/-- `3xnn`, `4xnn`, `5xy0`, `9xy0`: the skips on registers, the low nibble of classes 5 and 9 ignored (R127,
R128, R129, R130). That it is ignored is a choice of the spec (R99, D24, "This spec takes the literal reading";
log entry 10). -/
def Obligations.RegisterSkips : Prop :=
  (∀ op : Word, classField op = 0x3 → decode op = .ok (.seI (xField op) (nnField op))) ∧
  (∀ op : Word, classField op = 0x4 → decode op = .ok (.sneI (xField op) (nnField op))) ∧
  (∀ op : Word, classField op = 0x5 → decode op = .ok (.seR (xField op) (yField op))) ∧
  (∀ op : Word, classField op = 0x9 → decode op = .ok (.sneR (xField op) (yField op))) ∧
  (∀ (x : Reg) (nn : Byte) (s : State), SkipsWhen (.seI x nn) s (decide (getV s x = nn))) ∧
  (∀ (x : Reg) (nn : Byte) (s : State), SkipsWhen (.sneI x nn) s (decide (getV s x ≠ nn))) ∧
  (∀ (x y : Reg) (s : State), SkipsWhen (.seR x y) s (decide (getV s x = getV s y))) ∧
  (∀ (x y : Reg) (s : State), SkipsWhen (.sneR x y) s (decide (getV s x ≠ getV s y)))

/-- `next_pc` of every instruction: an instruction without a fault of its own, whose `next_pc` by R27 is in
range, completes, and `PC` becomes that `next_pc` (R27, R131). -/
def Obligations.EveryInstructionAdvancesPcAsRuled : Prop :=
  ∀ (i : Instr) (s : State), ownFault i s = false → 0x200 ≤ ruleNext i s → ruleNext i s ≤ 0xFFFE →
    ∃ t, exec i s = .next t ∧ t.pc.toNat = ruleNext i s ∧ t.mode = s.mode

/-- The program-counter check: an instruction without a fault of its own, whose `next_pc` is outside
0x200..0xFFFE, raises `PcBounds` and writes nothing (R122). -/
def Obligations.PcBoundsAtCommit : Prop :=
  ∀ (i : Instr) (s : State), ownFault i s = false → ruleNext i s < 0x200 ∨ 0xFFFE < ruleNext i s →
    exec i s = .next (haltedBy s .pcBounds (ruleNext i s))

/-- An instruction's own fault is the one reported, whatever its `next_pc`, and nothing is written (R248 item 2,
R242, R243, R244). -/
def Obligations.OwnFaultBeatsPcBounds : Prop :=
  ∀ (i : Instr) (s : State), ownFault i s = true →
    exec i s = .next (haltedBy s (ownCause i s).1 (ownCause i s).2)

/-! ## Index register and memory -/

/-- `Annn`, `Fx1E`, `Fx29`: `I` takes `nnn`, `(I + V[x]) mod 65536`, or `5 * (V[x] mod 16)`; no flag (R180, R181,
R182; that the sum wraps, that the low nibble selects and where the glyphs lie are the spec's own choices, D13
and D5). -/
def Obligations.IndexRegisterWrites : Prop :=
  (∀ op : Word, classField op = 0xA → decode op = .ok (.ldIdx (nnnField op))) ∧
  (∀ op : Word, classField op = 0xF → nnField op = 0x1E → decode op = .ok (.addIdx (xField op))) ∧
  (∀ op : Word, classField op = 0xF → nnField op = 0x29 → decode op = .ok (.ldFont (xField op))) ∧
  (∀ (nnn : BitVec 12) (s : State), GoesOn (.ldIdx nnn) s { s with i := BitVec.ofNat 16 nnn.toNat }) ∧
  (∀ (x : Reg) (s : State),
    GoesOn (.addIdx x) s { s with i := BitVec.ofNat 16 ((s.i.toNat + (getV s x).toNat) % 65536) }) ∧
  (∀ (x : Reg) (s : State),
    GoesOn (.ldFont x) s { s with i := BitVec.ofNat 16 (5 * ((getV s x).toNat % 16)) })

/-- `Fx33`: hundreds, tens, ones of `V[x]` at `I`, `I + 1`, `I + 2`; nothing else of memory or state changes; past
the end of memory `MemBounds` and nothing written (R183). That the hundreds digit lies lowest is the spec's own
reading (D15, log entry 16). -/
def Obligations.BcdStoresDecimalDigits : Prop :=
  (∀ op : Word, classField op = 0xF → nnField op = 0x33 → decode op = .ok (.bcd (xField op))) ∧
  (∀ (x : Reg) (s : State), s.mem.wf = true → NextInRange s → s.i.toNat + 2 < 65536 →
    ∃ t, exec (.bcd x) s = .next t ∧ t = { s with mem := t.mem, pc := s.pc + 2, wait := false } ∧
      (byteAt t.mem (effectiveAddress s 0)).toNat = (getV s x).toNat / 100 ∧
      (byteAt t.mem (effectiveAddress s 1)).toNat = (getV s x).toNat / 10 % 10 ∧
      (byteAt t.mem (effectiveAddress s 2)).toNat = (getV s x).toNat % 10 ∧
      ∀ a, a < effectiveAddress s 0 ∨ effectiveAddress s 0 + 3 ≤ a → byteAt t.mem a = byteAt s.mem a) ∧
  (∀ (x : Reg) (s : State), 65536 ≤ s.i.toNat + 2 →
    exec (.bcd x) s = .next (haltedBy s .memBounds (s.i.toNat + 2))) ∧
  (∀ (x : Reg) (s : State), s.i.toNat + 2 < 65536 → 0xFFFE < s.pc.toNat + 2 →
    exec (.bcd x) s = .next (haltedBy s .pcBounds (s.pc.toNat + 2)))

/-- `Fx55`: `V[k]` at `I + k` for `k = 0..x`; `I`, the registers and every other byte unchanged; past the end of
memory `MemBounds` and nothing written (R184). -/
def Obligations.StoreRegisterRange : Prop :=
  (∀ op : Word, classField op = 0xF → nnField op = 0x55 → decode op = .ok (.stm (xField op))) ∧
  (∀ (x : Reg) (s : State), s.mem.wf = true → NextInRange s → s.i.toNat + x.val < 65536 →
    ∃ t, exec (.stm x) s = .next t ∧ t = { s with mem := t.mem, pc := s.pc + 2, wait := false } ∧
      (∀ k : Reg, k ≤ x → byteAt t.mem (effectiveAddress s k.val) = getV s k) ∧
      ∀ a, a < effectiveAddress s 0 ∨ effectiveAddress s 0 + (x.val + 1) ≤ a → byteAt t.mem a = byteAt s.mem a) ∧
  (∀ (x : Reg) (s : State), 65536 ≤ s.i.toNat + x.val →
    exec (.stm x) s = .next (haltedBy s .memBounds (s.i.toNat + x.val))) ∧
  (∀ (x : Reg) (s : State), s.i.toNat + x.val < 65536 → 0xFFFE < s.pc.toNat + 2 →
    exec (.stm x) s = .next (haltedBy s .pcBounds (s.pc.toNat + 2)))

/-- `Fx65`: `V[k]` takes the byte at `I + k` for `k = 0..x`; the registers above `x`, `I` and memory unchanged; past
the end of memory `MemBounds` and no register written (R185). -/
def Obligations.LoadRegisterRange : Prop :=
  (∀ op : Word, classField op = 0xF → nnField op = 0x65 → decode op = .ok (.ldm (xField op))) ∧
  (∀ (x : Reg) (s : State), NextInRange s → s.i.toNat + x.val < 65536 →
    ∃ t, exec (.ldm x) s = .next t ∧ t = { s with v := t.v, pc := s.pc + 2, wait := false } ∧
      (∀ k : Reg, k ≤ x → getV t k = byteAt s.mem (effectiveAddress s k.val)) ∧
      ∀ k : Reg, x < k → getV t k = getV s k) ∧
  (∀ (x : Reg) (s : State), 65536 ≤ s.i.toNat + x.val →
    exec (.ldm x) s = .next (haltedBy s .memBounds (s.i.toNat + x.val))) ∧
  (∀ (x : Reg) (s : State), s.i.toNat + x.val < 65536 → 0xFFFE < s.pc.toNat + 2 →
    exec (.ldm x) s = .next (haltedBy s .pcBounds (s.pc.toNat + 2)))

/-- Storing a register range and loading it again, into any registers' state, restores those registers (R184,
R185, R71). -/
def Obligations.StoreThenLoadRestoresRegisters : Prop :=
  ∀ (x : Reg) (s t r : State), s.mem.wf = true → NextInRange s → s.i.toNat + x.val < 65536 →
    exec (.stm x) s = .next t → r.mem = t.mem → r.i = t.i → NextInRange r →
    ∃ u, exec (.ldm x) r = .next u ∧ ∀ k : Reg, k ≤ x → getV u k = getV s k

/-- A store is seen by the next fetch: a program counter pointing at two bytes just stored by `Fx55` fetches
them, the one at the lower address as the high byte (R74, R61; the byte order is the spec's own choice, D3, log entry 8). -/
def Obligations.StoreIsSeenByNextFetch : Prop :=
  ∀ (x k : Reg) (s t r : State), s.mem.wf = true → NextInRange s → s.i.toNat + x.val < 65536 → (h : k.val < x.val) →
    exec (.stm x) s = .next t → r.mem = t.mem → r.pc.toNat = s.i.toNat + k.val →
    fetch r = getV s k ++ getV s ⟨k.val + 1, by have := x.isLt; omega⟩

/-! ## Display -/

/-- `00E0`: every pixel 0, nothing else changed (R200). -/
def Obligations.ClearScreenClearsEveryPixel : Prop :=
  decode 0x00E0 = .ok .cls ∧
  (∀ s : State, NextInRange s →
    ∃ t, exec .cls s = .next t ∧ t = { s with fb := t.fb, pc := s.pc + 2, wait := false } ∧
      ∀ r c, r < 32 → c < 64 → pixelAt t.fb r c = false) ∧
  (∀ s : State, 0xFFFE < s.pc.toNat + 2 → exec .cls s = .next (haltedBy s .pcBounds (s.pc.toNat + 2)))

/-- `Dxyn` (R201) with this hardware's EDGE_WRAP = false: every pixel is XORed with the sprite bit that lands on it
or left alone; `VF` is 1 exactly when a set pixel was cleared; nothing else changes; a sprite past the end of
memory is `MemBounds` and draws nothing. That a sprite is clipped at the right and bottom edges is a choice of
the spec, which the source leaves "per implementation choice" (D16, log entry 9). -/
def Obligations.DrawXorsSpriteAndReportsCollision : Prop :=
  (∀ op : Word, classField op = 0xD → decode op = .ok (.drw (xField op) (yField op) (nField op))) ∧
  (∀ (x y : Reg) (n : BitVec 4) (s : State), NextInRange s → n.toNat = 0 ∨ s.i.toNat + n.toNat ≤ 65536 →
    ∃ t, exec (.drw x y n) s = .next t ∧
      t = { s with fb := t.fb, v := t.v, pc := s.pc + 2, wait := false } ∧
      (∀ k : Reg, k ≠ 15 → getV t k = getV s k) ∧
      (∀ r c, r < 32 → c < 64 → (pixelAt t.fb r c = true ↔
        ¬(pixelAt s.fb r c = true ↔
          Lit false ((getV s y).toNat % 32) ((getV s x).toNat % 64) n.toNat (spriteOf s) r c))) ∧
      (getV t 15 = 0 ∨ getV t 15 = 1) ∧
      (getV t 15 = 1 ↔ ∃ r c, r < 32 ∧ c < 64 ∧ pixelAt s.fb r c = true ∧
        Lit false ((getV s y).toNat % 32) ((getV s x).toNat % 64) n.toNat (spriteOf s) r c)) ∧
  (∀ (x y : Reg) (n : BitVec 4) (s : State), 0 < n.toNat → 65536 < s.i.toNat + n.toNat →
    exec (.drw x y n) s = .next (haltedBy s .memBounds (s.i.toNat + n.toNat - 1))) ∧
  (∀ (x y : Reg) (n : BitVec 4) (s : State), n.toNat = 0 ∨ s.i.toNat + n.toNat ≤ 65536 →
    0xFFFE < s.pc.toNat + 2 → exec (.drw x y n) s = .next (haltedBy s .pcBounds (s.pc.toNat + 2)))

/-- The blit loops agree with the per-pixel formula, with and without EDGE_WRAP (R201): the pixel is toggled
exactly when a 1 bit of the sprite lands on it, and `hit` is set exactly when such a pixel was set. -/
def Obligations.BlitLoopsMeetPixelFormula : Prop :=
  ∀ (wrap : Bool) (fb : Framebuffer) (r0 c0 : Nat) (sprite : List Byte),
    r0 < 32 → c0 < 64 → sprite.length ≤ 15 →
    (∀ r c, r < 32 → c < 64 → (pixelAt (blitSprite wrap fb r0 c0 sprite).fb r c = true ↔
      ¬(pixelAt fb r c = true ↔ Lit wrap r0 c0 sprite.length (fun j => sprite.getD j 0) r c))) ∧
    ((blitSprite wrap fb r0 c0 sprite).hit = true ↔ ∃ r c, r < 32 ∧ c < 64 ∧ pixelAt fb r c = true ∧
      Lit wrap r0 c0 sprite.length (fun j => sprite.getD j 0) r c)

/-- "Drawing twice returns the Framebuffer to its pre-draw state" (R202 a), with and without EDGE_WRAP; and after
the second draw the flag is set exactly when a visible 1 bit lay on a pixel that was 0 before the first
(R202 b). -/
def Obligations.DrawingTwiceRestoresTheScreen : Prop :=
  ∀ (wrap : Bool) (fb : Framebuffer) (r0 c0 : Nat) (sprite : List Byte),
    r0 < 32 → c0 < 64 → sprite.length ≤ 15 →
    (blitSprite wrap (blitSprite wrap fb r0 c0 sprite).fb r0 c0 sprite).fb = fb ∧
    ((blitSprite wrap (blitSprite wrap fb r0 c0 sprite).fb r0 c0 sprite).hit = true ↔
      ∃ r c, r < 32 ∧ c < 64 ∧ pixelAt fb r c = false ∧
        Lit wrap r0 c0 sprite.length (fun j => sprite.getD j 0) r c)

/-! ## Keypad and timers -/

/-- `Ex9E` and `ExA1`: skip by the level of the key that the low nibble of `V[x]` names (R221, R222). -/
def Obligations.KeySkips : Prop :=
  (∀ op : Word, classField op = 0xE → nnField op = 0x9E → decode op = .ok (.skp (xField op))) ∧
  (∀ op : Word, classField op = 0xE → nnField op = 0xA1 → decode op = .ok (.sknp (xField op))) ∧
  (∀ (x : Reg) (s : State), SkipsWhen (.skp x) s ((inputNow s).keys.getLsbD ((getV s x).toNat % 16))) ∧
  (∀ (x : Reg) (s : State), SkipsWhen (.sknp x) s (!(inputNow s).keys.getLsbD ((getV s x).toNat % 16)))

/-- `Fx0A`: with no key down `PC` stays and `WAIT` is 1; otherwise the least pressed key goes to `V[x]`, `PC + 2`
and `WAIT` 0 (R223). -/
def Obligations.KeyWaitPollsUntilPressed : Prop :=
  (∀ op : Word, classField op = 0xF → nnField op = 0x0A → decode op = .ok (.ldKey (xField op))) ∧
  (∀ (x : Reg) (s : State), PcInRange s → (inputNow s).keys = 0 →
    exec (.ldKey x) s = .next { s with wait := true }) ∧
  (∀ (x : Reg) (s : State) (k : Nat), k < 16 → (inputNow s).keys.getLsbD k = true →
    (∀ j < k, (inputNow s).keys.getLsbD j = false) →
    GoesOn (.ldKey x) s (setV s x (BitVec.ofNat 8 k)))

/-- `Fx07`, `Fx15`, `Fx18`: `V[x]` takes `DT`; `DT` or `ST` takes `V[x]` (R225, R226, R227). -/
def Obligations.TimerAccess : Prop :=
  (∀ op : Word, classField op = 0xF → nnField op = 0x07 → decode op = .ok (.ldRdt (xField op))) ∧
  (∀ op : Word, classField op = 0xF → nnField op = 0x15 → decode op = .ok (.ldWdt (xField op))) ∧
  (∀ op : Word, classField op = 0xF → nnField op = 0x18 → decode op = .ok (.ldWst (xField op))) ∧
  (∀ (x : Reg) (s : State), GoesOn (.ldRdt x) s (setV s x s.dt)) ∧
  (∀ (x : Reg) (s : State), GoesOn (.ldWdt x) s { s with dt := getV s x }) ∧
  (∀ (x : Reg) (s : State), GoesOn (.ldWst x) s { s with st := getV s x })

/-- `WAIT` after an instruction: 1 exactly for an `Fx0A` that found no key; a cycle that ends in a fatal fault does
not write it (R224). -/
def Obligations.WaitFlagFollowsKeyWait : Prop :=
  ∀ (i : Instr) (s t : State), s.mode = .run → exec i s = .next t →
    (t.mode = .run → (t.wait = true ↔ (∃ x, i = .ldKey x) ∧ (inputNow s).keys = 0)) ∧
    (t.mode = .halt → t.wait = s.wait)

/-- Phase T: with a tick pending or arriving, both timers go down by one and never below zero, otherwise they
stay; `TICK_PEND` is cleared unless a strobe comes with or after the service; nothing else changes (R260,
R261; how strobes arrive inside a cycle is read from R261, log entry 2). -/
def Obligations.TickServiceCountsDown : Prop :=
  ∀ s : State, tickService s =
    { s with dt := serviced s s.dt, st := serviced s s.st, tickPend := (inputNow s).tickDuring }

/-- Over a whole core cycle the timers change only by the tick service, except `DT` by `Fx15` and `ST` by `Fx18`;
at most one decrement happens (R260, R32). How strobes arrive inside a cycle, and that one that comes with or
after the service leaves `TICK_PEND` at 1 also where the cycle halts, is read from R261 (log entries 2 and 14). -/
def Obligations.TimersChangeOnlyByTickAndTheirWrites : Prop :=
  ∀ s t : State, step s = .next t →
    ((∀ x, decode (fetch s) ≠ .ok (.ldWdt x)) → t.dt = serviced s s.dt) ∧
    ((∀ x, decode (fetch s) ≠ .ok (.ldWst x)) → t.st = serviced s s.st) ∧
    t.tickPend = (inputNow s).tickDuring

/-- Only `Ex9E`, `ExA1` and `Fx0A` look at `keys`, and only `Cxnn` at `rnd`: changing the ports an instruction does
not sample changes nothing in what it does (R220, R162). -/
def Obligations.OnlySamplingInstructionsSeeThePorts : Prop :=
  ∀ (i : Instr) (s t : State) (ports : List CycleInput) (k : Nat),
    (readsKeys i = true → (inputNow (withPorts s ports k)).keys = (inputNow s).keys) →
    (readsRnd i = true → (inputNow (withPorts s ports k)).rnd = (inputNow s).rnd) →
    exec i s = .next t → exec i (withPorts s ports k) = .next (withPorts t ports k)

/-! ## Frames over all instructions -/

/-- Every general register an instruction does not name as a destination, and `VF` where it writes no flag, is
unchanged (R22, R24, R42). -/
def Obligations.RegistersOutsideDestinationsKeep : Prop :=
  ∀ (i : Instr) (s t : State) (r : Reg), exec i s = .next t → mayWrite i r = false → getV t r = getV s r

/-- Only `Fx33` and `Fx55` write memory, and only the bytes from `I` upward that they store; every other byte reads
as before, for every other instruction all of memory (R67, R184, R183). -/
def Obligations.MemoryOutsideStoresKeeps : Prop :=
  ∀ (i : Instr) (s t : State), exec i s = .next t →
    (∀ x, i = .bcd x → ∀ a, a < effectiveAddress s 0 ∨ effectiveAddress s 0 + 3 ≤ a →
      byteAt t.mem a = byteAt s.mem a) ∧
    (∀ x, i = .stm x → ∀ a, a < effectiveAddress s 0 ∨ effectiveAddress s 0 + regCount x ≤ a →
      byteAt t.mem a = byteAt s.mem a) ∧
    ((∀ x, i ≠ .bcd x) → (∀ x, i ≠ .stm x) → ∀ a, byteAt t.mem a = byteAt s.mem a)

/-- `FB` is written by `CLS` and `DRW` only, `I` by `Annn`, `Fx1E`, `Fx29` only, `STK` by `CALL` only, `SP` by `CALL`
and `RET` only, `DT` by `Fx15` only, `ST` by `Fx18` only (R202 d, R25, R30, R31, R32). -/
def Obligations.EachUnitHasItsWriters : Prop :=
  ∀ (i : Instr) (s t : State), exec i s = .next t →
    (i ≠ .cls → (∀ x y n, i ≠ .drw x y n) → t.fb = s.fb) ∧
    ((∀ nnn, i ≠ .ldIdx nnn) → (∀ x, i ≠ .addIdx x) → (∀ x, i ≠ .ldFont x) → t.i = s.i) ∧
    ((∀ nnn, i ≠ .call nnn) → t.stk = s.stk) ∧
    ((∀ nnn, i ≠ .call nnn) → i ≠ .ret → t.sp = s.sp) ∧
    ((∀ x, i ≠ .ldWdt x) → t.dt = s.dt) ∧
    ((∀ x, i ≠ .ldWst x) → t.st = s.st)

/-- No instruction reads or writes the status registers (9 of 10_state.md): `TICK_PEND`, `ILL` and the history are
unchanged, and `MODE`, `CAUSE`, `EPC`, `EINFO` are, unless the instruction raises a fatal fault. That strobes are
kept in a history is the model's own (log entry 6). -/
def Obligations.StatusRegistersAreOutOfReach : Prop :=
  ∀ (i : Instr) (s t : State), s.mode = .run → exec i s = .next t →
    t.tickPend = s.tickPend ∧ t.ill = s.ill ∧ t.events = s.events ∧
    (t.mode = .run → t.cause = s.cause ∧ t.epc = s.epc ∧ t.einfo = s.einfo)

/-- A byte of memory changes over a whole core cycle only if the word fetched is `Fx33` or `Fx55` and the byte is
one of those it stores to (R67, R71, R245). -/
def Obligations.StepChangesOnlyStoredBytes : Prop :=
  ∀ (s t : State) (a : Nat), step s = .next t → byteAt t.mem a ≠ byteAt s.mem a →
    (∃ x, decode (fetch s) = .ok (.bcd x) ∧ s.i.toNat ≤ a ∧ a ≤ s.i.toNat + 2) ∨
    (∃ x, decode (fetch s) = .ok (.stm x) ∧ s.i.toNat ≤ a ∧ a ≤ s.i.toNat + x.val)

/-! ## The core cycle, faults and halting -/

/-- A running core fetches the two bytes at `PC`, the one at the lower address as the high byte, and if they decode
runs that instruction on the state the tick service leaves, then ends the cycle (R120, R61).
That the byte at `PC` is the high half is the spec's own choice (R61, D3, "from general knowledge, not in
source"; log entry 8). -/
def Obligations.StepRunsTheDecodedInstruction : Prop :=
  ∀ (s : State) (i : Instr), s.mode = .run → PcInRange s →
    decode (byteAt s.mem s.pc.toNat ++ byteAt s.mem (s.pc.toNat + 1)) = .ok i →
    step s = endOutcome (exec i (tickService s))

/-- An unrecognised word is reported with its address, sets `ILL`, writes nothing else, and the core goes on at
`PC + 2`; at the top of memory the report stands and `PcBounds` halts the core (R245, R248 item 3). The event
history is the model's own (log entry 6). -/
def Obligations.UnrecognisedWordIsReportedAndSkipped : Prop :=
  ∀ (s : State) (e : Unrecognised), s.mode = .run → PcInRange s → decode (fetch s) = .error e →
    (s.pc.toNat + 2 ≤ 0xFFFE →
      step s = .next (endCycle { tickService s with
        ill := true, events := .illegalOp s.pc (fetch s) :: s.events, pc := s.pc + 2, wait := false })) ∧
    (0xFFFE < s.pc.toNat + 2 →
      step s = .next (endCycle (haltedBy { tickService s with
        ill := true, events := .illegalOp s.pc (fetch s) :: s.events } .pcBounds (s.pc.toNat + 2))))

/-- The end of a core cycle: after a commit `present` is strobed and `stop_req` sampled, and a stop request halts
the core with cause 1 at the next instruction; after a fatal fault there is neither (R120 phases P and Q, R252,
R246). The history and the input list are the model's own (log entries 1 and 6). -/
def Obligations.CycleEndsWithPresentAndStopPoll : Prop :=
  ∀ u : State,
    (u.mode = .run → (inputNow u).stopReq = false →
      endCycle u = { u with events := .present :: u.events, inputs := u.inputs.tail, cycle := u.cycle + 1 }) ∧
    (u.mode = .run → (inputNow u).stopReq = true →
      endCycle u = { u with
        events := .present :: u.events, inputs := u.inputs.tail, cycle := u.cycle + 1
        mode := .halt, cause := .stopRequest, epc := u.pc, einfo := 0 }) ∧
    (u.mode = .halt → endCycle u = { u with inputs := u.inputs.tail, cycle := u.cycle + 1 })

/-- In HALT the machine has no step (R120, R35): `step` stops by the model's fault `halted` (log entry 3). -/
def Obligations.HaltHasNoStep : Prop :=
  ∀ s : State, s.mode = .halt → step s = .fault .halted

/-- In every state of R28 a running core takes its core cycle: no instruction word, recognised or not, is refused
or stops the model (R101, R100). -/
def Obligations.EveryWordExecutes : Prop :=
  ∀ s : State, s.mode = .run → PcInRange s → ∃ t, step s = .next t

/-- A core cycle halts the core only by a fatal fault or by a sampled stop request, and a sampled stop request
never leaves it running (R35, R246, R252). -/
def Obligations.HaltOnlyByFaultOrStopRequest : Prop :=
  ∀ s t : State, Inv s → step s = .next t →
    (t.mode = .halt → t.cause = .stackOverflow ∨ t.cause = .stackUnderflow ∨ t.cause = .memBounds ∨
      t.cause = .pcBounds ∨ (t.cause = .stopRequest ∧ (inputNow s).stopReq = true)) ∧
    (t.mode = .run → (inputNow s).stopReq = false)

/-- Faults are precise and all-or-nothing: after a core cycle that ends in a fatal fault every register, the stack,
the screen, memory and `WAIT` are as before, the timers as the tick service left them, `EPC` is `PC`, and there
was no `present` (R247, R246). The history that shows the missing strobe is the model's own (log entry 6), and how
strobes of the tick arrive is read from R261 (log entry 2); `TICK_PEND`, which R247 does not name, is left to
`TimersChangeOnlyByTickAndTheirWrites`. -/
def Obligations.FatalFaultsArePrecise : Prop :=
  ∀ s t : State, step s = .next t → t.mode = .halt → t.cause ≠ .stopRequest →
    t.v = s.v ∧ t.i = s.i ∧ t.pc = s.pc ∧ t.stk = s.stk ∧ t.sp = s.sp ∧ t.fb = s.fb ∧ t.mem = s.mem ∧
    t.wait = s.wait ∧ t.dt = serviced s s.dt ∧ t.st = serviced s s.st ∧ t.epc = s.pc ∧
    ((t.events = s.events ∧ t.ill = s.ill) ∨
      (t.events = .illegalOp s.pc (fetch s) :: s.events ∧ t.ill = true))

/-- `ILL` is sticky, and a cycle sets it exactly by fetching an unrecognised word (R38, R245). -/
def Obligations.IllFlagIsSticky : Prop :=
  ∀ s t : State, step s = .next t →
    (t.ill = true ↔ s.ill = true ∨ ∃ e, decode (fetch s) = .error e)

/-- Every core cycle keeps the invariant: memory in canonical form, `PC` in 0x0200..0xFFFE, the halt registers in
agreement with the mode and the cause, `WAIT` only at an `Fx0A`, `ILL` exactly as the history says (R28, R35,
R36, R37, R38, R241). The canonical form and the history are the model's own (log entries 6 and 7). -/
def Obligations.EveryStepKeepsTheInvariant : Prop :=
  ∀ s t : State, Inv s → step s = .next t → Inv t

/-! ## Reset and loading -/

/-- The reset state meets the invariant. -/
def Obligations.ResetMeetsTheInvariant : Prop := Inv State.reset

/-- The values after reset (R41, R280): registers, stack, timers, screen, status, `PC` at 0x0200, the font of R69 at
0x000..0x04F and 0x00 in the rest of memory. Values that R41 marks as decided are the spec's own choices (D4, D5,
D22; log entry 7). -/
def Obligations.ResetValues : Prop :=
  (∀ r : Reg, getV State.reset r = 0) ∧ State.reset.i = 0 ∧ State.reset.pc = 0x0200 ∧ State.reset.sp = 0 ∧
  (∀ k, (h : k < 16) → State.reset.stk[k] = 0) ∧ State.reset.dt = 0 ∧ State.reset.st = 0 ∧
  State.reset.tickPend = false ∧ (∀ r c, pixelAt State.reset.fb r c = false) ∧ State.reset.mode = .run ∧
  State.reset.cause = .none ∧ State.reset.epc = 0 ∧ State.reset.einfo = 0 ∧ State.reset.wait = false ∧
  State.reset.ill = false ∧
  (List.range 80).map (byteAt State.reset.mem) =
    [0xF0, 0x90, 0x90, 0x90, 0xF0, 0x20, 0x60, 0x20, 0x20, 0x70, 0xF0, 0x10, 0xF0, 0x80, 0xF0] ++
    [0xF0, 0x10, 0xF0, 0x10, 0xF0, 0x90, 0x90, 0xF0, 0x10, 0x10, 0xF0, 0x80, 0xF0, 0x10, 0xF0] ++
    [0xF0, 0x80, 0xF0, 0x90, 0xF0, 0xF0, 0x10, 0x20, 0x40, 0x40, 0xF0, 0x90, 0xF0, 0x90, 0xF0] ++
    [0xF0, 0x90, 0xF0, 0x10, 0xF0, 0xF0, 0x90, 0xF0, 0x90, 0x90, 0xE0, 0x90, 0xE0, 0x90, 0xE0] ++
    [0xF0, 0x80, 0x80, 0x80, 0xF0, 0xE0, 0x90, 0x90, 0x90, 0xE0, 0xF0, 0x80, 0xF0, 0x80, 0xF0] ++
    [0xF0, 0x80, 0xF0, 0x80, 0x80] ∧
  (∀ a, 80 ≤ a → byteAt State.reset.mem a = 0)

/-- Reset leaves HALT and discards the whole state, whatever it was (R249, R281). That the model's input list and cycle number
go on is its choice (log entry 5). -/
def Obligations.ResetDiscardsTheState : Prop :=
  ∀ s : State, assertReset s = { State.reset with inputs := s.inputs, cycle := s.cycle }

/-- The loader places an image byte for byte from 0x0200 up and changes nothing else of memory; every image that
fits is loaded and one that does not is refused; the loaded core runs from 0x0200 and meets the invariant
(R284, R280). Answering none for an image that does not fit is how the model says that the core is never started
(log entry 5). -/
def Obligations.ImageIsLoadedVerbatim : Prop :=
  ∀ (s : State) (image : List Byte),
    (65024 < image.length → bootWith s image = none) ∧
    (image.length ≤ 65024 → ∃ t, bootWith s image = some t ∧ Inv t ∧ t.mode = .run ∧ t.pc = 0x0200 ∧
      (∀ k, (h : k < image.length) → byteAt t.mem (0x200 + k) = image[k]) ∧
      (∀ a, a < 0x200 ∨ 0x200 + image.length ≤ a → byteAt t.mem a = byteAt State.reset.mem a))

/-! ## Output ports -/

/-- `present` is strobed once by every core cycle that commits, the one that a stop request halts included, and not
by one that ends in a fatal fault, whatever earlier cycles strobed (R8, R120, R246). The history that counts the
strobes is the model's own (log entry 6). -/
def Obligations.PresentIsStrobedUnlessTheCycleFaults : Prop :=
  ∀ s t : State, step s = .next t →
    (presentStrobed t = true ↔ t.mode = .run ∨ t.cause = .stopRequest) ∧
    t.events.count .present = s.events.count .present + (if presentStrobed t then 1 else 0)
end

