-- ==== Sys2Proof/Laws/Dispatch.lean ====
section
/-! SUPPORT. One equation per arm of exec: which meaning an instruction runs. -/

namespace Sys2Proof.Machine

@[simp] theorem exec_cls (s : State) : exec .cls s = execCls s := rfl
@[simp] theorem exec_ret (s : State) : exec .ret s = execRet s := rfl
@[simp] theorem exec_jp (nnn : BitVec 12) (s : State) : exec (.jp nnn) s = execJp nnn s := rfl
@[simp] theorem exec_call (nnn : BitVec 12) (s : State) : exec (.call nnn) s = execCall nnn s := rfl
@[simp] theorem exec_seI (x : Reg) (nn : Byte) (s : State) : exec (.seI x nn) s = execSeI x nn s := rfl
@[simp] theorem exec_sneI (x : Reg) (nn : Byte) (s : State) : exec (.sneI x nn) s = execSneI x nn s := rfl
@[simp] theorem exec_seR (x : Reg) (y : Reg) (s : State) : exec (.seR x y) s = execSeR x y s := rfl
@[simp] theorem exec_ldI (x : Reg) (nn : Byte) (s : State) : exec (.ldI x nn) s = execLdI x nn s := rfl
@[simp] theorem exec_addI (x : Reg) (nn : Byte) (s : State) : exec (.addI x nn) s = execAddI x nn s := rfl
@[simp] theorem exec_ldR (x : Reg) (y : Reg) (s : State) : exec (.ldR x y) s = execLdR x y s := rfl
@[simp] theorem exec_orR (x : Reg) (y : Reg) (s : State) : exec (.orR x y) s = execOrR x y s := rfl
@[simp] theorem exec_andR (x : Reg) (y : Reg) (s : State) : exec (.andR x y) s = execAndR x y s := rfl
@[simp] theorem exec_xorR (x : Reg) (y : Reg) (s : State) : exec (.xorR x y) s = execXorR x y s := rfl
@[simp] theorem exec_addR (x : Reg) (y : Reg) (s : State) : exec (.addR x y) s = execAddR x y s := rfl
@[simp] theorem exec_sub (x : Reg) (y : Reg) (s : State) : exec (.sub x y) s = execSub x y s := rfl
@[simp] theorem exec_shr (x : Reg) (y : Reg) (s : State) : exec (.shr x y) s = execShr x y s := rfl
@[simp] theorem exec_subn (x : Reg) (y : Reg) (s : State) : exec (.subn x y) s = execSubn x y s := rfl
@[simp] theorem exec_shl (x : Reg) (y : Reg) (s : State) : exec (.shl x y) s = execShl x y s := rfl
@[simp] theorem exec_sneR (x : Reg) (y : Reg) (s : State) : exec (.sneR x y) s = execSneR x y s := rfl
@[simp] theorem exec_ldIdx (nnn : BitVec 12) (s : State) : exec (.ldIdx nnn) s = execLdIdx nnn s := rfl
@[simp] theorem exec_jpV0 (nnn : BitVec 12) (s : State) : exec (.jpV0 nnn) s = execJpV0 nnn s := rfl
@[simp] theorem exec_rnd (x : Reg) (nn : Byte) (s : State) : exec (.rnd x nn) s = execRnd x nn s := rfl
@[simp] theorem exec_drw (x : Reg) (y : Reg) (n : BitVec 4) (s : State) : exec (.drw x y n) s = execDrw x y n s := rfl
@[simp] theorem exec_skp (x : Reg) (s : State) : exec (.skp x) s = execSkp x s := rfl
@[simp] theorem exec_sknp (x : Reg) (s : State) : exec (.sknp x) s = execSknp x s := rfl
@[simp] theorem exec_ldRdt (x : Reg) (s : State) : exec (.ldRdt x) s = execLdRdt x s := rfl
@[simp] theorem exec_ldKey (x : Reg) (s : State) : exec (.ldKey x) s = execLdKey x s := rfl
@[simp] theorem exec_ldWdt (x : Reg) (s : State) : exec (.ldWdt x) s = execLdWdt x s := rfl
@[simp] theorem exec_ldWst (x : Reg) (s : State) : exec (.ldWst x) s = execLdWst x s := rfl
@[simp] theorem exec_addIdx (x : Reg) (s : State) : exec (.addIdx x) s = execAddIdx x s := rfl
@[simp] theorem exec_ldFont (x : Reg) (s : State) : exec (.ldFont x) s = execLdFont x s := rfl
@[simp] theorem exec_bcd (x : Reg) (s : State) : exec (.bcd x) s = execBcd x s := rfl
@[simp] theorem exec_stm (x : Reg) (s : State) : exec (.stm x) s = execStm x s := rfl
@[simp] theorem exec_ldm (x : Reg) (s : State) : exec (.ldm x) s = execLdm x s := rfl

end Sys2Proof.Machine
end

