-- ==== Sys2Proof/Laws/Encoding.lean ====
section
/-! SUPPORT. The fields of a word and the words of the formats as numbers (R91, R93): every question about the
encoding becomes arithmetic on `toNat`. -/

namespace Sys2Proof

/-! ## The fields of a word -/

theorem classField_toNat (op : Word) : (classField op).toNat = op.toNat / 4096 := by
  have := op.isLt
  unfold classField
  rw [BitVec.extractLsb'_toNat, Nat.shiftRight_eq_div_pow]
  omega

theorem xField_val (op : Word) : (xField op).val = op.toNat / 256 % 16 := by
  unfold xField
  rw [BitVec.val_toFin, BitVec.extractLsb'_toNat, Nat.shiftRight_eq_div_pow]

theorem yField_val (op : Word) : (yField op).val = op.toNat / 16 % 16 := by
  unfold yField
  rw [BitVec.val_toFin, BitVec.extractLsb'_toNat, Nat.shiftRight_eq_div_pow]

theorem nField_toNat (op : Word) : (nField op).toNat = op.toNat % 16 := by
  unfold nField
  rw [BitVec.extractLsb'_toNat, Nat.shiftRight_eq_div_pow]
  omega

theorem nnField_toNat (op : Word) : (nnField op).toNat = op.toNat % 256 := by
  unfold nnField
  rw [BitVec.extractLsb'_toNat, Nat.shiftRight_eq_div_pow]
  omega

theorem nnnField_toNat (op : Word) : (nnnField op).toNat = op.toNat % 4096 := by
  unfold nnnField
  rw [BitVec.extractLsb'_toNat, Nat.shiftRight_eq_div_pow]
  omega

/-- A number above another field is a sum. -/
theorem append_toNat {v w : Nat} (a : BitVec v) (b : BitVec w) : (a ++ b).toNat = a.toNat * 2 ^ w + b.toNat := by
  rw [BitVec.toNat_append, ← Nat.shiftLeft_add_eq_or_of_lt b.isLt, Nat.shiftLeft_eq]

theorem wordOfBytes_toNat (hi lo : Byte) : (wordOfBytes hi lo).toNat = hi.toNat * 256 + lo.toNat :=
  append_toNat hi lo

theorem hiByte_toNat (w : Word) : (hiByte w).toNat = w.toNat / 256 := by
  have := w.isLt
  unfold hiByte
  rw [BitVec.extractLsb'_toNat, Nat.shiftRight_eq_div_pow]
  omega

theorem loByte_toNat (w : Word) : (loByte w).toNat = w.toNat % 256 := by
  unfold loByte
  rw [BitVec.extractLsb'_toNat, Nat.shiftRight_eq_div_pow]
  omega

/-- Cutting a word into its two bytes and putting them together gives it back. -/
@[simp] theorem wordOfBytes_bytes (w : Word) : wordOfBytes (hiByte w) (loByte w) = w := by
  apply BitVec.eq_of_toNat_eq
  rw [wordOfBytes_toNat, hiByte_toNat, loByte_toNat]
  omega

/-! ## The words of the formats -/

theorem formatZ_toNat (code : BitVec 12) : (formatZ code).toNat = code.toNat := by
  unfold formatZ
  rw [append_toNat]
  simp

theorem formatA_toNat (cls : BitVec 4) (nnn : BitVec 12) :
    (formatA cls nnn).toNat = cls.toNat * 4096 + nnn.toNat := append_toNat cls nnn

theorem formatXI_toNat (cls : BitVec 4) (x : Reg) (nn : Byte) :
    (formatXI cls x nn).toNat = cls.toNat * 4096 + x.val * 256 + nn.toNat := by
  unfold formatXI
  have hx : (BitVec.ofFin (w := 4) x).toNat = x.val := rfl
  rw [append_toNat, append_toNat, hx]
  omega

theorem formatXYN_toNat (cls : BitVec 4) (x y : Reg) (n : BitVec 4) :
    (formatXYN cls x y n).toNat = cls.toNat * 4096 + x.val * 256 + y.val * 16 + n.toNat := by
  unfold formatXYN
  have hx : (BitVec.ofFin (w := 4) x).toNat = x.val := rfl
  have hy : (BitVec.ofFin (w := 4) y).toNat = y.val := rfl
  rw [append_toNat, append_toNat, append_toNat, hx, hy]
  omega

/-! ## The fields of the formats -/

@[simp] theorem classField_formatA (c : BitVec 4) (a : BitVec 12) : classField (formatA c a) = c := by
  apply BitVec.eq_of_toNat_eq
  rw [classField_toNat, formatA_toNat]
  omega

@[simp] theorem nnnField_formatA (c : BitVec 4) (a : BitVec 12) : nnnField (formatA c a) = a := by
  apply BitVec.eq_of_toNat_eq
  rw [nnnField_toNat, formatA_toNat]
  omega

@[simp] theorem classField_formatXI (c : BitVec 4) (x : Reg) (nn : Byte) : classField (formatXI c x nn) = c := by
  apply BitVec.eq_of_toNat_eq
  rw [classField_toNat, formatXI_toNat]
  omega

@[simp] theorem xField_formatXI (c : BitVec 4) (x : Reg) (nn : Byte) : xField (formatXI c x nn) = x := by
  apply Fin.ext
  rw [xField_val, formatXI_toNat]
  omega

@[simp] theorem nnField_formatXI (c : BitVec 4) (x : Reg) (nn : Byte) : nnField (formatXI c x nn) = nn := by
  apply BitVec.eq_of_toNat_eq
  rw [nnField_toNat, formatXI_toNat]
  omega

@[simp] theorem classField_formatXYN (c : BitVec 4) (x y : Reg) (n : BitVec 4) :
    classField (formatXYN c x y n) = c := by
  apply BitVec.eq_of_toNat_eq
  rw [classField_toNat, formatXYN_toNat]
  omega

@[simp] theorem xField_formatXYN (c : BitVec 4) (x y : Reg) (n : BitVec 4) : xField (formatXYN c x y n) = x := by
  apply Fin.ext
  rw [xField_val, formatXYN_toNat]
  omega

@[simp] theorem yField_formatXYN (c : BitVec 4) (x y : Reg) (n : BitVec 4) : yField (formatXYN c x y n) = y := by
  apply Fin.ext
  rw [yField_val, formatXYN_toNat]
  omega

@[simp] theorem nField_formatXYN (c : BitVec 4) (x y : Reg) (n : BitVec 4) : nField (formatXYN c x y n) = n := by
  apply BitVec.eq_of_toNat_eq
  rw [nField_toNat, formatXYN_toNat]
  omega

end Sys2Proof
end

