-- ==== Sys2Proof/Laws/Memory.lean ====
section
/-! SUPPORT. Memory: a byte reads as last written, every write keeps the canonical form, and what a span of reads
or writes does. -/

namespace Sys2Proof.Machine

theorem wfFrom_cons {lo a : Nat} {b : Byte} {m : Memory} :
    Memory.wfFrom lo ((a, b) :: m) = true ↔
      lo ≤ a ∧ a < Config.memSize ∧ b ≠ resetByte a ∧ Memory.wfFrom (a + 1) m = true := by
  simp [Memory.wfFrom, and_assoc]

/-- A canonical memory from `lo` up is canonical from any lower address up. -/
theorem wfFrom_mono {lo lo' : Nat} (h : lo' ≤ lo) {m : Memory} (hm : Memory.wfFrom lo m = true) :
    Memory.wfFrom lo' m = true := by
  cases m with
  | nil => rfl
  | cons c m =>
    obtain ⟨a, b⟩ := c
    rw [wfFrom_cons] at hm ⊢
    exact ⟨h.trans hm.1, hm.2⟩

/-- An address below the first listed one reads as after reset. -/
theorem byteAt_below {lo : Nat} {m : Memory} (hm : Memory.wfFrom lo m = true) {a : Nat} (h : a < lo) :
    byteAt m a = resetByte a := by
  induction m generalizing lo with
  | nil => rfl
  | cons c m ih =>
    obtain ⟨k, b⟩ := c
    rw [wfFrom_cons] at hm
    rw [byteAt, if_neg (by omega)]
    exact ih hm.2.2.2 (by omega)

/-- Writing one byte leaves every other address alone. -/
theorem byteAt_putByte_other (m : Memory) {a c : Nat} (v : Byte) (h : c ≠ a) :
    byteAt (putByte m a v) c = byteAt m c := by
  induction m with
  | nil => unfold putByte; split <;> simp [byteAt, h.symm]
  | cons d m ih =>
    obtain ⟨k, b⟩ := d
    unfold putByte
    split
    · split <;> simp [byteAt, h.symm]
    · split
      · split <;> simp_all [byteAt, eq_comm]
      · simp [byteAt, ih]

/-- The byte written is the byte read. -/
theorem byteAt_putByte_same {lo : Nat} {m : Memory} (hm : Memory.wfFrom lo m = true) (a : Nat) (v : Byte) :
    byteAt (putByte m a v) a = v := by
  induction m generalizing lo with
  | nil => unfold putByte; split <;> simp_all [byteAt]
  | cons d m ih =>
    obtain ⟨k, b⟩ := d
    rw [wfFrom_cons] at hm
    unfold putByte
    split
    · split
      · rw [byteAt, if_neg (by omega), byteAt_below hm.2.2.2 (by omega)]; simp_all
      · simp [byteAt]
    · split
      · split
        · subst_vars; exact byteAt_below hm.2.2.2 (by omega)
        · simp [byteAt]
      · rw [byteAt, if_neg (by omega)]; exact ih hm.2.2.2

/-- Reading after one write, in a canonical memory. -/
theorem byteAt_putByte {m : Memory} (hm : m.wf = true) (a c : Nat) (v : Byte) :
    byteAt (putByte m a v) c = if c = a then v else byteAt m c := by
  split
  · next h => rw [h]; exact byteAt_putByte_same hm a v
  · exact byteAt_putByte_other m v ‹_›

theorem wfFrom_putByte {lo : Nat} {m : Memory} (hm : Memory.wfFrom lo m = true) {a : Nat} (hlo : lo ≤ a)
    (ha : a < Config.memSize) (v : Byte) : Memory.wfFrom lo (putByte m a v) = true := by
  induction m generalizing lo with
  | nil => unfold putByte; split <;> simp_all [Memory.wfFrom]
  | cons d m ih =>
    obtain ⟨k, b⟩ := d
    have hc := wfFrom_cons.1 hm
    unfold putByte
    split
    · split
      · exact hm
      · exact wfFrom_cons.2 ⟨hlo, ha, ‹_›, wfFrom_cons.2 ⟨by omega, hc.2⟩⟩
    · split
      · split
        · exact wfFrom_mono (by omega) hc.2.2.2
        · exact wfFrom_cons.2 ⟨hlo, ha, ‹_›, wfFrom_mono (by omega) hc.2.2.2⟩
      · exact wfFrom_cons.2 ⟨hc.1, hc.2.1, hc.2.2.1, ih hc.2.2.2 (by omega)⟩

/-- Writing a byte inside memory keeps the canonical form. -/
theorem wf_putByte {m : Memory} (hm : m.wf = true) {a : Nat} (ha : a < Config.memSize) (v : Byte) :
    (putByte m a v).wf = true := wfFrom_putByte hm (Nat.zero_le a) ha v

/-- Writing bytes inside memory keeps the canonical form. -/
theorem wf_putBytes {m : Memory} (hm : m.wf = true) {a : Nat} {bs : List Byte}
    (h : a + bs.length ≤ Config.memSize) : (putBytes m a bs).wf = true := by
  induction bs generalizing m a with
  | nil => exact hm
  | cons b bs ih =>
    simp only [List.length_cons] at h
    exact ih (wf_putByte hm (by omega) b) (by omega)

/-- Addresses outside the bytes written read as before. -/
theorem byteAt_putBytes_other {m : Memory} {a c : Nat} {bs : List Byte} (h : c < a ∨ a + bs.length ≤ c) :
    byteAt (putBytes m a bs) c = byteAt m c := by
  induction bs generalizing m a with
  | nil => rfl
  | cons b bs ih =>
    simp only [List.length_cons] at h
    rw [putBytes, ih (by omega), byteAt_putByte_other m b (by omega)]

/-- The bytes written are the bytes read. -/
theorem byteAt_putBytes_same {m : Memory} (hm : m.wf = true) {a : Nat} {bs : List Byte}
    (h : a + bs.length ≤ Config.memSize) {k : Nat} (hk : k < bs.length) :
    byteAt (putBytes m a bs) (a + k) = bs[k] := by
  induction bs generalizing m a k with
  | nil => simp at hk
  | cons b bs ih =>
    simp only [List.length_cons] at h hk
    have hw := wf_putByte hm (show a < Config.memSize by omega) b
    cases k with
    | zero =>
      rw [putBytes, byteAt_putBytes_other (by omega), Nat.add_zero, byteAt_putByte hm, if_pos rfl]
      rfl
    | succ k =>
      have := ih hw (a := a + 1) (by omega) (k := k) (by omega)
      rw [putBytes, show a + (k + 1) = a + 1 + k by omega, this]
      rfl

@[simp] theorem bytesFrom_length (m : Memory) (a n : Nat) : (bytesFrom m a n).length = n := by
  induction n generalizing a with
  | zero => rfl
  | succ n ih => simp [bytesFrom, ih]

/-- The `k`-th byte of a span of reads. -/
theorem bytesFrom_getElem (m : Memory) (a n k : Nat) (h : k < (bytesFrom m a n).length) :
    (bytesFrom m a n)[k] = byteAt m (a + k) := by
  induction n generalizing a k with
  | zero => simp at h
  | succ n ih =>
    cases k with
    | zero => rfl
    | succ k =>
      simp only [bytesFrom, List.getElem_cons_succ]
      rw [ih (a + 1) k (by simpa [bytesFrom] using h)]
      congr 1
      omega

/-- A span fits when it is empty or ends inside memory. -/
theorem spanFits_iff (a n : Nat) : spanFits a n = true ↔ n = 0 ∨ a + n ≤ 65536 := by
  unfold spanFits lastAddress Config.memSize
  simp only [Bool.or_eq_true, beq_iff_eq, decide_eq_true_eq]
  omega

/-- Everything a span of reads can answer. -/
theorem readSpan_cases (m : Memory) (a n : Nat) :
    (readSpan m a n = some (bytesFrom m a n) ∧ (n = 0 ∨ a + n ≤ 65536)) ∨
      (readSpan m a n = none ∧ 0 < n ∧ 65536 < a + n) := by
  unfold readSpan
  by_cases h : spanFits a n = true
  · exact .inl ⟨if_pos h, (spanFits_iff a n).1 h⟩
  · refine .inr ⟨if_neg h, ?_⟩
    rw [spanFits_iff] at h
    omega

/-- Everything a span of writes can answer. -/
theorem writeSpan_cases (m : Memory) (a : Nat) (bs : List Byte) :
    (writeSpan m a bs = some (putBytes m a bs) ∧ (bs.length = 0 ∨ a + bs.length ≤ 65536)) ∨
      (writeSpan m a bs = none ∧ 0 < bs.length ∧ 65536 < a + bs.length) := by
  unfold writeSpan
  by_cases h : spanFits a bs.length = true
  · exact .inl ⟨if_pos h, (spanFits_iff a _).1 h⟩
  · refine .inr ⟨if_neg h, ?_⟩
    rw [spanFits_iff] at h
    omega

/-- The single-byte primitives answer for the addresses of memory and for no other (R63, R64). -/
theorem memRead_eq (m : Memory) (a : Nat) :
    memRead m a = if a < 65536 then some (byteAt m a) else none := by
  unfold memRead Config.memSize
  split <;> split <;> first | rfl | omega

theorem memWrite_eq (m : Memory) (a : Nat) (v : Byte) :
    memWrite m a v = if a < 65536 then some (putByte m a v) else none := by
  unfold memWrite Config.memSize
  split <;> split <;> first | rfl | omega

/-- Every write that answers keeps the canonical form. -/
theorem wf_memWrite {m m' : Memory} {a : Nat} {v : Byte} (hm : m.wf = true) (h : memWrite m a v = some m') :
    m'.wf = true := by
  rw [memWrite_eq] at h
  split at h
  · cases h; exact wf_putByte hm ‹_› v
  · cases h

theorem wf_writeSpan {m m' : Memory} {a : Nat} {bs : List Byte} (hm : m.wf = true)
    (h : writeSpan m a bs = some m') : m'.wf = true := by
  obtain ⟨e, hf⟩ | ⟨e, -⟩ := writeSpan_cases m a bs
  · rw [e] at h
    cases h
    rcases hf with h0 | h1
    · rw [List.length_eq_zero_iff] at h0
      subst h0
      exact hm
    · exact wf_putBytes hm h1
  · rw [e] at h; cases h

end Sys2Proof.Machine
end

