-- ==== Sys2Proof/Laws/State.lean ====
section
/-! SUPPORT. One lemma per field per named update of the state, true by rfl: what each operation leaves alone and
what it writes. -/

namespace Sys2Proof.Machine

/-! ### `setV`: only `V` -/
@[simp] theorem setV_i (s : State) (r : Reg) (b : Byte) : (setV s r b).i = s.i := rfl
@[simp] theorem setV_pc (s : State) (r : Reg) (b : Byte) : (setV s r b).pc = s.pc := rfl
@[simp] theorem setV_stk (s : State) (r : Reg) (b : Byte) : (setV s r b).stk = s.stk := rfl
@[simp] theorem setV_sp (s : State) (r : Reg) (b : Byte) : (setV s r b).sp = s.sp := rfl
@[simp] theorem setV_dt (s : State) (r : Reg) (b : Byte) : (setV s r b).dt = s.dt := rfl
@[simp] theorem setV_st (s : State) (r : Reg) (b : Byte) : (setV s r b).st = s.st := rfl
@[simp] theorem setV_tickPend (s : State) (r : Reg) (b : Byte) : (setV s r b).tickPend = s.tickPend := rfl
@[simp] theorem setV_fb (s : State) (r : Reg) (b : Byte) : (setV s r b).fb = s.fb := rfl
@[simp] theorem setV_mem (s : State) (r : Reg) (b : Byte) : (setV s r b).mem = s.mem := rfl
@[simp] theorem setV_mode (s : State) (r : Reg) (b : Byte) : (setV s r b).mode = s.mode := rfl
@[simp] theorem setV_cause (s : State) (r : Reg) (b : Byte) : (setV s r b).cause = s.cause := rfl
@[simp] theorem setV_epc (s : State) (r : Reg) (b : Byte) : (setV s r b).epc = s.epc := rfl
@[simp] theorem setV_einfo (s : State) (r : Reg) (b : Byte) : (setV s r b).einfo = s.einfo := rfl
@[simp] theorem setV_wait (s : State) (r : Reg) (b : Byte) : (setV s r b).wait = s.wait := rfl
@[simp] theorem setV_ill (s : State) (r : Reg) (b : Byte) : (setV s r b).ill = s.ill := rfl
@[simp] theorem setV_events (s : State) (r : Reg) (b : Byte) : (setV s r b).events = s.events := rfl
@[simp] theorem setV_inputs (s : State) (r : Reg) (b : Byte) : (setV s r b).inputs = s.inputs := rfl
@[simp] theorem setV_cycle (s : State) (r : Reg) (b : Byte) : (setV s r b).cycle = s.cycle := rfl

/-! ### `haltWith`: only the mode and the halt registers -/
@[simp] theorem haltWith_v (s : State) (c : Cause) (e f : Word) : (haltWith s c e f).v = s.v := rfl
@[simp] theorem haltWith_i (s : State) (c : Cause) (e f : Word) : (haltWith s c e f).i = s.i := rfl
@[simp] theorem haltWith_pc (s : State) (c : Cause) (e f : Word) : (haltWith s c e f).pc = s.pc := rfl
@[simp] theorem haltWith_stk (s : State) (c : Cause) (e f : Word) : (haltWith s c e f).stk = s.stk := rfl
@[simp] theorem haltWith_sp (s : State) (c : Cause) (e f : Word) : (haltWith s c e f).sp = s.sp := rfl
@[simp] theorem haltWith_dt (s : State) (c : Cause) (e f : Word) : (haltWith s c e f).dt = s.dt := rfl
@[simp] theorem haltWith_st (s : State) (c : Cause) (e f : Word) : (haltWith s c e f).st = s.st := rfl
@[simp] theorem haltWith_tickPend (s : State) (c : Cause) (e f : Word) : (haltWith s c e f).tickPend = s.tickPend := rfl
@[simp] theorem haltWith_fb (s : State) (c : Cause) (e f : Word) : (haltWith s c e f).fb = s.fb := rfl
@[simp] theorem haltWith_mem (s : State) (c : Cause) (e f : Word) : (haltWith s c e f).mem = s.mem := rfl
@[simp] theorem haltWith_wait (s : State) (c : Cause) (e f : Word) : (haltWith s c e f).wait = s.wait := rfl
@[simp] theorem haltWith_ill (s : State) (c : Cause) (e f : Word) : (haltWith s c e f).ill = s.ill := rfl
@[simp] theorem haltWith_events (s : State) (c : Cause) (e f : Word) : (haltWith s c e f).events = s.events := rfl
@[simp] theorem haltWith_inputs (s : State) (c : Cause) (e f : Word) : (haltWith s c e f).inputs = s.inputs := rfl
@[simp] theorem haltWith_cycle (s : State) (c : Cause) (e f : Word) : (haltWith s c e f).cycle = s.cycle := rfl
@[simp] theorem haltWith_mode (s : State) (c : Cause) (e f : Word) : (haltWith s c e f).mode = .halt := rfl
@[simp] theorem haltWith_cause (s : State) (c : Cause) (e f : Word) : (haltWith s c e f).cause = c := rfl
@[simp] theorem haltWith_epc (s : State) (c : Cause) (e f : Word) : (haltWith s c e f).epc = e := rfl
@[simp] theorem haltWith_einfo (s : State) (c : Cause) (e f : Word) : (haltWith s c e f).einfo = f := rfl

/-! ### `raiseFault`: only the mode and the halt registers -/
@[simp] theorem raiseFault_v (s : State) (c : Cause) (n : Nat) : (raiseFault s c n).v = s.v := rfl
@[simp] theorem raiseFault_i (s : State) (c : Cause) (n : Nat) : (raiseFault s c n).i = s.i := rfl
@[simp] theorem raiseFault_pc (s : State) (c : Cause) (n : Nat) : (raiseFault s c n).pc = s.pc := rfl
@[simp] theorem raiseFault_stk (s : State) (c : Cause) (n : Nat) : (raiseFault s c n).stk = s.stk := rfl
@[simp] theorem raiseFault_sp (s : State) (c : Cause) (n : Nat) : (raiseFault s c n).sp = s.sp := rfl
@[simp] theorem raiseFault_dt (s : State) (c : Cause) (n : Nat) : (raiseFault s c n).dt = s.dt := rfl
@[simp] theorem raiseFault_st (s : State) (c : Cause) (n : Nat) : (raiseFault s c n).st = s.st := rfl
@[simp] theorem raiseFault_tickPend (s : State) (c : Cause) (n : Nat) : (raiseFault s c n).tickPend = s.tickPend := rfl
@[simp] theorem raiseFault_fb (s : State) (c : Cause) (n : Nat) : (raiseFault s c n).fb = s.fb := rfl
@[simp] theorem raiseFault_mem (s : State) (c : Cause) (n : Nat) : (raiseFault s c n).mem = s.mem := rfl
@[simp] theorem raiseFault_wait (s : State) (c : Cause) (n : Nat) : (raiseFault s c n).wait = s.wait := rfl
@[simp] theorem raiseFault_ill (s : State) (c : Cause) (n : Nat) : (raiseFault s c n).ill = s.ill := rfl
@[simp] theorem raiseFault_events (s : State) (c : Cause) (n : Nat) : (raiseFault s c n).events = s.events := rfl
@[simp] theorem raiseFault_inputs (s : State) (c : Cause) (n : Nat) : (raiseFault s c n).inputs = s.inputs := rfl
@[simp] theorem raiseFault_cycle (s : State) (c : Cause) (n : Nat) : (raiseFault s c n).cycle = s.cycle := rfl
@[simp] theorem raiseFault_mode (s : State) (c : Cause) (n : Nat) : (raiseFault s c n).mode = .halt := rfl
@[simp] theorem raiseFault_cause (s : State) (c : Cause) (n : Nat) : (raiseFault s c n).cause = c := rfl
@[simp] theorem raiseFault_epc (s : State) (c : Cause) (n : Nat) : (raiseFault s c n).epc = s.pc := rfl
@[simp] theorem raiseFault_einfo (s : State) (c : Cause) (n : Nat) : (raiseFault s c n).einfo = BitVec.ofNat 16 n := rfl

/-! ### `tickService`: only the timers and `TICK_PEND` -/
@[simp] theorem tickService_v (s : State) : (tickService s).v = s.v := rfl
@[simp] theorem tickService_i (s : State) : (tickService s).i = s.i := rfl
@[simp] theorem tickService_pc (s : State) : (tickService s).pc = s.pc := rfl
@[simp] theorem tickService_stk (s : State) : (tickService s).stk = s.stk := rfl
@[simp] theorem tickService_sp (s : State) : (tickService s).sp = s.sp := rfl
@[simp] theorem tickService_fb (s : State) : (tickService s).fb = s.fb := rfl
@[simp] theorem tickService_mem (s : State) : (tickService s).mem = s.mem := rfl
@[simp] theorem tickService_mode (s : State) : (tickService s).mode = s.mode := rfl
@[simp] theorem tickService_cause (s : State) : (tickService s).cause = s.cause := rfl
@[simp] theorem tickService_epc (s : State) : (tickService s).epc = s.epc := rfl
@[simp] theorem tickService_einfo (s : State) : (tickService s).einfo = s.einfo := rfl
@[simp] theorem tickService_wait (s : State) : (tickService s).wait = s.wait := rfl
@[simp] theorem tickService_ill (s : State) : (tickService s).ill = s.ill := rfl
@[simp] theorem tickService_events (s : State) : (tickService s).events = s.events := rfl
@[simp] theorem tickService_inputs (s : State) : (tickService s).inputs = s.inputs := rfl
@[simp] theorem tickService_cycle (s : State) : (tickService s).cycle = s.cycle := rfl

/-! ### `reportIllegal`: only `ILL` and the events -/
@[simp] theorem reportIllegal_v (s : State) (op : Word) : (reportIllegal s op).v = s.v := rfl
@[simp] theorem reportIllegal_i (s : State) (op : Word) : (reportIllegal s op).i = s.i := rfl
@[simp] theorem reportIllegal_pc (s : State) (op : Word) : (reportIllegal s op).pc = s.pc := rfl
@[simp] theorem reportIllegal_stk (s : State) (op : Word) : (reportIllegal s op).stk = s.stk := rfl
@[simp] theorem reportIllegal_sp (s : State) (op : Word) : (reportIllegal s op).sp = s.sp := rfl
@[simp] theorem reportIllegal_dt (s : State) (op : Word) : (reportIllegal s op).dt = s.dt := rfl
@[simp] theorem reportIllegal_st (s : State) (op : Word) : (reportIllegal s op).st = s.st := rfl
@[simp] theorem reportIllegal_tickPend (s : State) (op : Word) : (reportIllegal s op).tickPend = s.tickPend := rfl
@[simp] theorem reportIllegal_fb (s : State) (op : Word) : (reportIllegal s op).fb = s.fb := rfl
@[simp] theorem reportIllegal_mem (s : State) (op : Word) : (reportIllegal s op).mem = s.mem := rfl
@[simp] theorem reportIllegal_mode (s : State) (op : Word) : (reportIllegal s op).mode = s.mode := rfl
@[simp] theorem reportIllegal_cause (s : State) (op : Word) : (reportIllegal s op).cause = s.cause := rfl
@[simp] theorem reportIllegal_epc (s : State) (op : Word) : (reportIllegal s op).epc = s.epc := rfl
@[simp] theorem reportIllegal_einfo (s : State) (op : Word) : (reportIllegal s op).einfo = s.einfo := rfl
@[simp] theorem reportIllegal_wait (s : State) (op : Word) : (reportIllegal s op).wait = s.wait := rfl
@[simp] theorem reportIllegal_inputs (s : State) (op : Word) : (reportIllegal s op).inputs = s.inputs := rfl
@[simp] theorem reportIllegal_cycle (s : State) (op : Word) : (reportIllegal s op).cycle = s.cycle := rfl
@[simp] theorem reportIllegal_ill (s : State) (op : Word) : (reportIllegal s op).ill = true := rfl
@[simp] theorem reportIllegal_events (s : State) (op : Word) :
    (reportIllegal s op).events = .illegalOp s.pc op :: s.events := rfl

/-! ### `presentAndPoll`: only the events, the mode and the halt registers -/
@[simp] theorem presentAndPoll_v (s : State) : (presentAndPoll s).v = s.v := rfl
@[simp] theorem presentAndPoll_i (s : State) : (presentAndPoll s).i = s.i := rfl
@[simp] theorem presentAndPoll_pc (s : State) : (presentAndPoll s).pc = s.pc := rfl
@[simp] theorem presentAndPoll_stk (s : State) : (presentAndPoll s).stk = s.stk := rfl
@[simp] theorem presentAndPoll_sp (s : State) : (presentAndPoll s).sp = s.sp := rfl
@[simp] theorem presentAndPoll_dt (s : State) : (presentAndPoll s).dt = s.dt := rfl
@[simp] theorem presentAndPoll_st (s : State) : (presentAndPoll s).st = s.st := rfl
@[simp] theorem presentAndPoll_tickPend (s : State) : (presentAndPoll s).tickPend = s.tickPend := rfl
@[simp] theorem presentAndPoll_fb (s : State) : (presentAndPoll s).fb = s.fb := rfl
@[simp] theorem presentAndPoll_mem (s : State) : (presentAndPoll s).mem = s.mem := rfl
@[simp] theorem presentAndPoll_wait (s : State) : (presentAndPoll s).wait = s.wait := rfl
@[simp] theorem presentAndPoll_ill (s : State) : (presentAndPoll s).ill = s.ill := rfl
@[simp] theorem presentAndPoll_inputs (s : State) : (presentAndPoll s).inputs = s.inputs := rfl
@[simp] theorem presentAndPoll_cycle (s : State) : (presentAndPoll s).cycle = s.cycle := rfl
@[simp] theorem presentAndPoll_events (s : State) : (presentAndPoll s).events = .present :: s.events := rfl

/-! ### `nextInput`: only the model's own input fields -/
@[simp] theorem nextInput_v (s : State) : (nextInput s).v = s.v := rfl
@[simp] theorem nextInput_i (s : State) : (nextInput s).i = s.i := rfl
@[simp] theorem nextInput_pc (s : State) : (nextInput s).pc = s.pc := rfl
@[simp] theorem nextInput_stk (s : State) : (nextInput s).stk = s.stk := rfl
@[simp] theorem nextInput_sp (s : State) : (nextInput s).sp = s.sp := rfl
@[simp] theorem nextInput_dt (s : State) : (nextInput s).dt = s.dt := rfl
@[simp] theorem nextInput_st (s : State) : (nextInput s).st = s.st := rfl
@[simp] theorem nextInput_tickPend (s : State) : (nextInput s).tickPend = s.tickPend := rfl
@[simp] theorem nextInput_fb (s : State) : (nextInput s).fb = s.fb := rfl
@[simp] theorem nextInput_mem (s : State) : (nextInput s).mem = s.mem := rfl
@[simp] theorem nextInput_mode (s : State) : (nextInput s).mode = s.mode := rfl
@[simp] theorem nextInput_cause (s : State) : (nextInput s).cause = s.cause := rfl
@[simp] theorem nextInput_epc (s : State) : (nextInput s).epc = s.epc := rfl
@[simp] theorem nextInput_einfo (s : State) : (nextInput s).einfo = s.einfo := rfl
@[simp] theorem nextInput_wait (s : State) : (nextInput s).wait = s.wait := rfl
@[simp] theorem nextInput_ill (s : State) : (nextInput s).ill = s.ill := rfl
@[simp] theorem nextInput_events (s : State) : (nextInput s).events = s.events := rfl
@[simp] theorem nextInput_inputs (s : State) : (nextInput s).inputs = s.inputs.tail := rfl
@[simp] theorem nextInput_cycle (s : State) : (nextInput s).cycle = s.cycle + 1 := rfl

/-! ### `pop`: only `SP` -/
@[simp] theorem pop_v (s : State) : (pop s).v = s.v := rfl
@[simp] theorem pop_i (s : State) : (pop s).i = s.i := rfl
@[simp] theorem pop_pc (s : State) : (pop s).pc = s.pc := rfl
@[simp] theorem pop_stk (s : State) : (pop s).stk = s.stk := rfl
@[simp] theorem pop_dt (s : State) : (pop s).dt = s.dt := rfl
@[simp] theorem pop_st (s : State) : (pop s).st = s.st := rfl
@[simp] theorem pop_tickPend (s : State) : (pop s).tickPend = s.tickPend := rfl
@[simp] theorem pop_fb (s : State) : (pop s).fb = s.fb := rfl
@[simp] theorem pop_mem (s : State) : (pop s).mem = s.mem := rfl
@[simp] theorem pop_mode (s : State) : (pop s).mode = s.mode := rfl
@[simp] theorem pop_cause (s : State) : (pop s).cause = s.cause := rfl
@[simp] theorem pop_epc (s : State) : (pop s).epc = s.epc := rfl
@[simp] theorem pop_einfo (s : State) : (pop s).einfo = s.einfo := rfl
@[simp] theorem pop_wait (s : State) : (pop s).wait = s.wait := rfl
@[simp] theorem pop_ill (s : State) : (pop s).ill = s.ill := rfl
@[simp] theorem pop_events (s : State) : (pop s).events = s.events := rfl
@[simp] theorem pop_inputs (s : State) : (pop s).inputs = s.inputs := rfl
@[simp] theorem pop_cycle (s : State) : (pop s).cycle = s.cycle := rfl
@[simp] theorem pop_sp (s : State) : (pop s).sp.val = s.sp.val - 1 := rfl

/-! ### `push`: only `STK` and `SP` -/
@[simp] theorem push_v (s : State) (w : Word) : (push s w).v = s.v := by unfold push; split <;> rfl
@[simp] theorem push_i (s : State) (w : Word) : (push s w).i = s.i := by unfold push; split <;> rfl
@[simp] theorem push_pc (s : State) (w : Word) : (push s w).pc = s.pc := by unfold push; split <;> rfl
@[simp] theorem push_dt (s : State) (w : Word) : (push s w).dt = s.dt := by unfold push; split <;> rfl
@[simp] theorem push_st (s : State) (w : Word) : (push s w).st = s.st := by unfold push; split <;> rfl
@[simp] theorem push_tickPend (s : State) (w : Word) : (push s w).tickPend = s.tickPend := by unfold push; split <;> rfl
@[simp] theorem push_fb (s : State) (w : Word) : (push s w).fb = s.fb := by unfold push; split <;> rfl
@[simp] theorem push_mem (s : State) (w : Word) : (push s w).mem = s.mem := by unfold push; split <;> rfl
@[simp] theorem push_mode (s : State) (w : Word) : (push s w).mode = s.mode := by unfold push; split <;> rfl
@[simp] theorem push_cause (s : State) (w : Word) : (push s w).cause = s.cause := by unfold push; split <;> rfl
@[simp] theorem push_epc (s : State) (w : Word) : (push s w).epc = s.epc := by unfold push; split <;> rfl
@[simp] theorem push_einfo (s : State) (w : Word) : (push s w).einfo = s.einfo := by unfold push; split <;> rfl
@[simp] theorem push_wait (s : State) (w : Word) : (push s w).wait = s.wait := by unfold push; split <;> rfl
@[simp] theorem push_ill (s : State) (w : Word) : (push s w).ill = s.ill := by unfold push; split <;> rfl
@[simp] theorem push_events (s : State) (w : Word) : (push s w).events = s.events := by unfold push; split <;> rfl
@[simp] theorem push_inputs (s : State) (w : Word) : (push s w).inputs = s.inputs := by unfold push; split <;> rfl
@[simp] theorem push_cycle (s : State) (w : Word) : (push s w).cycle = s.cycle := by unfold push; split <;> rfl

/-! ### `getV` and `setV` -/

/-- A register reads the byte last written to it; the others read as before. -/
@[simp] theorem getV_setV (s : State) (r q : Reg) (b : Byte) :
    getV (setV s r b) q = if q = r then b else getV s q := by
  unfold getV setV
  simp only [Fin.getElem_fin, Vector.getElem_set, Fin.ext_iff]
  split <;> split <;> first | rfl | omega

/-- Reading a register depends on `V` alone. -/
theorem getV_congr {s t : State} (h : s.v = t.v) (r : Reg) : getV s r = getV t r := by
  unfold getV; rw [h]

end Sys2Proof.Machine
end

