-- ==== Sys2Proof/Laws/Ops.lean ====
section
/-! SUPPORT. What each shared operation can do, said once: the program-counter check, the commit, what an
instruction hands to it, the end of a core cycle, and the step. -/

namespace Sys2Proof.Machine

/-! ## The commit -/

/-- The range of `PC` in numbers (R28). -/
theorem pcLegal_iff (n : Nat) : pcLegal n = true ↔ 0x200 ≤ n ∧ n ≤ 0xFFFE := by
  unfold pcLegal Config.loadBase Config.memSize
  simp

theorem commit_legal {n : Nat} (h : pcLegal n = true) (before after : State) (w : Bool) :
    commit before after n w = { after with pc := BitVec.ofNat 16 n, wait := w } := if_pos h

theorem commit_illegal {n : Nat} (h : ¬pcLegal n = true) (before after : State) (w : Bool) :
    commit before after n w = raiseFault before .pcBounds n := if_neg h

/-- Everything a commit can do (R120 phase C, R122). -/
theorem commit_cases (before after : State) (n : Nat) (w : Bool) :
    (pcLegal n = true ∧ commit before after n w = { after with pc := BitVec.ofNat 16 n, wait := w }) ∨
      (pcLegal n = false ∧ commit before after n w = raiseFault before .pcBounds n) := by
  by_cases h : pcLegal n = true
  · exact .inl ⟨h, commit_legal h ..⟩
  · exact .inr ⟨by simpa using h, commit_illegal h ..⟩

theorem ofNat_nextPc (s : State) : BitVec.ofNat 16 (s.pc.toNat + 2) = s.pc + 2 := by
  rw [BitVec.ofNat_add, BitVec.ofNat_toNat, BitVec.setWidth_eq]
  rfl

/-- The commit of an instruction that goes on to the next word. -/
theorem complete_legal {before : State} (h : pcLegal (before.pc.toNat + 2) = true) (after : State) :
    complete before after = { after with pc := before.pc + 2, wait := false } := by
  unfold complete nextPc
  rw [commit_legal h, ofNat_nextPc]

/-! ## The stack -/

theorem push_notFull {s : State} (h : s.sp.val < 16) (w : Word) :
    push s w = { s with stk := s.stk.set s.sp.val w h, sp := ⟨s.sp.val + 1, Nat.succ_lt_succ h⟩ } := by
  unfold push
  exact dif_pos h

theorem stackEntry_of_lt (s : State) {k : Nat} (h : k < 16) : stackEntry s k = s.stk[k] := dif_pos h

/-! ## The keypad -/

/-- The key `lowestKey` finds is one of 0..15, is pressed, and no lower key is. -/
theorem lowestKey_some {keys : BitVec 16} {k : Nat} (h : lowestKey keys = some k) :
    k < 16 ∧ keyDown keys k = true ∧ ∀ j < k, keyDown keys j = false := by
  unfold lowestKey at h
  rw [List.find?_range_eq_some] at h
  obtain ⟨hk, hm, hl⟩ := h
  exact ⟨by simpa using hm, hk, fun j hj => by simpa using hl j hj⟩

/-- No key is found exactly when none is pressed. -/
theorem lowestKey_none {keys : BitVec 16} : lowestKey keys = none ↔ keys = 0 := by
  unfold lowestKey keyDown
  rw [List.find?_range_eq_none]
  constructor
  · intro h
    apply BitVec.eq_of_getLsbD_eq
    intro i hi
    simpa using h i hi
  · rintro rfl i -
    simp

/-! ## What an instruction can do -/

/-- The fatal faults an instruction's own rule raises, with the datum (R241). -/
inductive OwnFault (s : State) : Instr → Cause → Nat → Prop where
  | overflow (nnn : BitVec 12) (h : s.sp.val = 16) : OwnFault s (.call nnn) .stackOverflow 16
  | underflow (h : s.sp.val = 0) : OwnFault s .ret .stackUnderflow 0
  | memory (i : Instr) (last : Nat) (lo : 65536 ≤ last) (hi : last ≤ 65550) : OwnFault s i .memBounds last

/-- What an instruction may hand to the commit: pending writes to `V`, `I`, `STK`, `SP`, `DT`, `ST`, `FB`, `MEM`
only, memory in canonical form, and `wait'` set only by an `Fx0A` that leaves everything alone (R120, R224). -/
structure PendingWrites (i : Instr) (s w : State) (next : Nat) (wt : Bool) : Prop where
  mode : w.mode = s.mode
  cause : w.cause = s.cause
  epc : w.epc = s.epc
  einfo : w.einfo = s.einfo
  tickPend : w.tickPend = s.tickPend
  ill : w.ill = s.ill
  events : w.events = s.events
  inputs : w.inputs = s.inputs
  cycle : w.cycle = s.cycle
  memory : s.mem.wf = true → w.mem.wf = true
  next_le : next ≤ 65535 + 4
  waits : wt = true → w = s ∧ next = s.pc.toNat ∧ ∃ x, i = .ldKey x

theorem effectiveAddress_zero (s : State) : effectiveAddress s 0 = s.i.toNat := rfl

theorem regBytes_length (s : State) (x : Reg) : (regBytes s x).length = x.val + 1 := by
  unfold regBytes regCount
  simp

/-- Every instruction answers a next state: its own fault, or a commit of pending writes (R120 phases X, C). -/
theorem exec_cases (i : Instr) (s : State) :
    (∃ c n, OwnFault s i c n ∧ exec i s = .next (raiseFault s c n)) ∨
      (∃ w n wt, PendingWrites i s w n wt ∧ exec i s = .next (commit s w n wt)) := by
  have hpc := s.pc.isLt
  have hi := s.i.isLt
  have mk : ∀ {o : Host.Outcome State Fault Refusal} {w n wt}, o = .next (commit s w n wt) →
      PendingWrites i s w n wt → ∃ w n wt, PendingWrites i s w n wt ∧ o = .next (commit s w n wt) :=
    fun e p => ⟨_, _, _, p, e⟩
  have plain : ∀ w : State, w.mode = s.mode → w.cause = s.cause → w.epc = s.epc → w.einfo = s.einfo →
      w.tickPend = s.tickPend → w.ill = s.ill → w.events = s.events → w.inputs = s.inputs →
      w.cycle = s.cycle → (s.mem.wf = true → w.mem.wf = true) → ∀ n, n ≤ 65535 + 4 →
      PendingWrites i s w n false := fun w a b c d e f g h k m n hn =>
    ⟨a, b, c, d, e, f, g, h, k, m, hn, fun hw => by cases hw⟩
  have seq : ∀ w : State, w.mode = s.mode → w.cause = s.cause → w.epc = s.epc → w.einfo = s.einfo →
      w.tickPend = s.tickPend → w.ill = s.ill → w.events = s.events → w.inputs = s.inputs →
      w.cycle = s.cycle → (s.mem.wf = true → w.mem.wf = true) →
      PendingWrites i s w (nextPc s) false := fun w a b c d e f g h k m =>
    plain w a b c d e f g h k m _ (by unfold nextPc; omega)
  have reg : ∀ x b, ∃ w n wt, PendingWrites i s w n wt ∧
      writeReg x b s = .next (commit s w n wt) := fun x b =>
    ⟨setV s x b, _, _, seq _ rfl rfl rfl rfl rfl rfl rfl rfl rfl id, rfl⟩
  have regFlag : ∀ x b f, ∃ w n wt, PendingWrites i s w n wt ∧
      writeRegFlag x b f s = .next (commit s w n wt) := fun x b f =>
    ⟨setResultAndFlag s x b f, _, _, seq _ rfl rfl rfl rfl rfl rfl rfl rfl rfl id, rfl⟩
  have skip : ∀ c, ∃ w n wt, PendingWrites i s w n wt ∧ skipIf c s = .next (commit s w n wt) := fun c =>
    ⟨s, _, _, plain s rfl rfl rfl rfl rfl rfl rfl rfl rfl id _ (by unfold skipTarget; split <;> omega), rfl⟩
  have index : ∀ v, ∃ w n wt, PendingWrites i s w n wt ∧ writeIndex v s = .next (commit s w n wt) := fun v =>
    mk rfl (seq _ rfl rfl rfl rfl rfl rfl rfl rfl rfl id)
  have store : ∀ bs : List Byte, bs.length ≤ 16 →
      (∃ c n, OwnFault s i c n ∧ storeAtIndex bs s = .next (raiseFault s c n)) ∨
      (∃ w n wt, PendingWrites i s w n wt ∧ storeAtIndex bs s = .next (commit s w n wt)) := by
    intro bs hl
    unfold storeAtIndex
    rcases writeSpan_cases s.mem (effectiveAddress s 0) bs with ⟨e, hf⟩ | ⟨e, h0, h1⟩
    · have he := e
      rw [e]
      exact .inr <| mk rfl (seq _ rfl rfl rfl rfl rfl rfl rfl rfl rfl (fun hm => wf_writeSpan hm he))
    · rw [e]
      rw [effectiveAddress_zero] at h1 ⊢
      exact .inl ⟨_, _, .memory i _ (by unfold lastAddress; omega) (by unfold lastAddress; omega), rfl⟩
  cases i with
  | cls => exact .inr <| mk rfl (seq _ rfl rfl rfl rfl rfl rfl rfl rfl rfl id)
  | ret =>
    rw [exec_ret, execRet]
    by_cases h : s.sp.val = 0
    · rw [if_pos h]; exact .inl ⟨_, _, .underflow h, rfl⟩
    · rw [if_neg h]
      exact .inr ⟨_, _, _, plain (pop s) rfl rfl rfl rfl rfl rfl rfl rfl rfl id _
        (by have := (stackEntry s (s.sp.val - 1)).isLt; omega), rfl⟩
  | jp nnn =>
    exact .inr ⟨s, _, _, plain s rfl rfl rfl rfl rfl rfl rfl rfl rfl id _
      (by have := nnn.isLt; unfold jumpTarget; omega), rfl⟩
  | call nnn =>
    rw [exec_call, execCall]
    by_cases h : s.sp.val = Config.stackDepth
    · rw [if_pos h, h]; exact .inl ⟨_, _, .overflow nnn h, rfl⟩
    · rw [if_neg h]
      refine .inr ⟨_, _, _, plain (push s (returnAddress s)) ?_ ?_ ?_ ?_ ?_ ?_ ?_ ?_ ?_ ?_ _
        (by have := nnn.isLt; unfold jumpTarget; omega), rfl⟩ <;> simp
  | seI x nn => exact .inr (skip _)
  | sneI x nn => exact .inr (skip _)
  | seR x y => exact .inr (skip _)
  | ldI x nn => exact .inr (reg _ _)
  | addI x nn => exact .inr (reg _ _)
  | ldR x y => exact .inr (reg _ _)
  | orR x y => exact .inr (reg _ _)
  | andR x y => exact .inr (reg _ _)
  | xorR x y => exact .inr (reg _ _)
  | addR x y => exact .inr (regFlag _ _ _)
  | sub x y => exact .inr (regFlag _ _ _)
  | shr x y => exact .inr (regFlag _ _ _)
  | subn x y => exact .inr (regFlag _ _ _)
  | shl x y => exact .inr (regFlag _ _ _)
  | sneR x y => exact .inr (skip _)
  | ldIdx nnn => exact .inr (index _)
  | jpV0 nnn =>
    exact .inr ⟨s, _, _, plain s rfl rfl rfl rfl rfl rfl rfl rfl rfl id _
      (by have := nnn.isLt; have := (getV s 0).isLt; unfold jumpOffsetTarget; omega), rfl⟩
  | rnd x nn => exact .inr (reg _ _)
  | drw x y n =>
    rw [exec_drw, execDrw]
    rcases readSpan_cases s.mem (effectiveAddress s 0) n.toNat with ⟨e, hf⟩ | ⟨e, h0, h1⟩
    · rw [e]
      exact .inr <| mk rfl (seq _ rfl rfl rfl rfl rfl rfl rfl rfl rfl id)
    · rw [e]
      rw [effectiveAddress_zero] at h1 ⊢
      have := n.isLt
      exact .inl ⟨_, _, .memory _ _ (by unfold lastAddress; omega) (by unfold lastAddress; omega), rfl⟩
  | skp x => exact .inr (skip _)
  | sknp x => exact .inr (skip _)
  | ldRdt x => exact .inr (reg _ _)
  | ldKey x =>
    refine .inr ?_
    rw [exec_ldKey, execLdKey]
    cases lowestKey (keysNow s) with
    | none =>
      exact ⟨s, _, true, ⟨rfl, rfl, rfl, rfl, rfl, rfl, rfl, rfl, rfl, id, by omega, fun _ => ⟨rfl, rfl, x, rfl⟩⟩, rfl⟩
    | some k => exact mk rfl (seq _ rfl rfl rfl rfl rfl rfl rfl rfl rfl id)
  | ldWdt x => exact .inr <| mk rfl (seq _ rfl rfl rfl rfl rfl rfl rfl rfl rfl id)
  | ldWst x => exact .inr <| mk rfl (seq _ rfl rfl rfl rfl rfl rfl rfl rfl rfl id)
  | addIdx x => exact .inr (index _)
  | ldFont x => exact .inr (index _)
  | bcd x => exact store _ (by simp [decimalDigits])
  | stm x => exact store _ (by rw [regBytes_length]; omega)
  | ldm x =>
    rw [exec_ldm, execLdm]
    rcases readSpan_cases s.mem (effectiveAddress s 0) (regCount x) with ⟨e, hf⟩ | ⟨e, h0, h1⟩
    · rw [e]
      exact .inr <| mk rfl (seq _ rfl rfl rfl rfl rfl rfl rfl rfl rfl id)
    · rw [e]
      rw [effectiveAddress_zero] at h1 ⊢
      have : regCount x ≤ 16 := x.isLt
      exact .inl ⟨_, _, .memory _ _ (by unfold lastAddress; omega) (by unfold lastAddress; omega), rfl⟩

/-! ## The core cycle -/

@[simp] theorem fetch_tickService (s : State) : fetch (tickService s) = fetch s := rfl

@[simp] theorem inputNow_tickService (s : State) : inputNow (tickService s) = inputNow s := rfl

/-- The inputs of the cycle depend on the model's own fields alone. -/
theorem inputNow_congr {s t : State} (hi : t.inputs = s.inputs) (hc : t.cycle = s.cycle) :
    inputNow t = inputNow s := by
  unfold inputNow
  rw [hi, hc]

theorem endCycle_run {s : State} (h : s.mode = .run) : endCycle s = nextInput (presentAndPoll s) := by
  unfold endCycle
  rw [h]

theorem endCycle_halt {s : State} (h : s.mode = .halt) : endCycle s = nextInput s := by
  unfold endCycle
  rw [h]

/-- Everything a core cycle that answers a next state can be (R120). -/
theorem step_next {s t : State} (h : step s = .next t) :
    s.mode = .run ∧ pcLegal s.pc.toNat = true ∧
      ((∃ i u, decode (fetch s) = .ok i ∧ exec i (tickService s) = .next u ∧ t = endCycle u) ∨
       (∃ e, decode (fetch s) = .error e ∧
        t = endCycle (complete (reportIllegal (tickService s) (fetch s)) (reportIllegal (tickService s) (fetch s))))) := by
  unfold step at h
  cases hm : s.mode with
  | halt => rw [hm] at h; cases h
  | run =>
    rw [hm] at h
    by_cases hp : pcLegal s.pc.toNat = true
    · refine ⟨rfl, hp, ?_⟩
      simp only [hp, if_true, fetch_tickService] at h
      cases hd : decode (fetch s) with
      | error e =>
        rw [hd] at h
        simp only [execIllegal, endOutcome] at h
        cases h
        exact .inr ⟨e, rfl, rfl⟩
      | ok i =>
        rw [hd] at h
        refine .inl ⟨i, ?_⟩
        cases he : exec i (tickService s) with
        | next u =>
          simp only [he, endOutcome] at h
          cases h
          exact ⟨u, rfl, rfl, rfl⟩
        | fault f => simp only [he, endOutcome] at h; cases h
        | refused r => simp only [he, endOutcome] at h; cases h
    · simp only [hp] at h; cases h

end Sys2Proof.Machine
end

