-- ==== Sys2Proof/Laws/PerInstr.lean ====
section
/-! SUPPORT. Statements made for every instruction, one lemma per constructor. Family WellFormed: the line of
assembly of an instruction is well-formed and names the instruction's own row (R101, R108). -/

namespace Sys2Proof.Laws

/-- The line of assembly of `i` is well-formed and names the row of `i`. -/
def WellFormed.Statement (i : Instr) : Prop := i.wellFormed = true ∧ i.toAsm.row = i.row

theorem WellFormed.cls : WellFormed.Statement .cls := ⟨rfl, rfl⟩
theorem WellFormed.ret : WellFormed.Statement .ret := ⟨rfl, rfl⟩
theorem WellFormed.jp (nnn : BitVec 12) : WellFormed.Statement (.jp nnn) := by
  simp [WellFormed.Statement, Instr.wellFormed, AsmLine.wellFormed, Instr.toAsm, Row.places, fitsAll, AsmPlace.fits, Instr.row, nnn.isLt]
theorem WellFormed.call (nnn : BitVec 12) : WellFormed.Statement (.call nnn) := by
  simp [WellFormed.Statement, Instr.wellFormed, AsmLine.wellFormed, Instr.toAsm, Row.places, fitsAll, AsmPlace.fits, Instr.row, nnn.isLt]
theorem WellFormed.seI (x : Reg) (nn : Byte) : WellFormed.Statement (.seI x nn) := by
  simp [WellFormed.Statement, Instr.wellFormed, AsmLine.wellFormed, Instr.toAsm, Row.places, fitsAll, AsmPlace.fits, Instr.row, x.isLt, nn.isLt]
theorem WellFormed.sneI (x : Reg) (nn : Byte) : WellFormed.Statement (.sneI x nn) := by
  simp [WellFormed.Statement, Instr.wellFormed, AsmLine.wellFormed, Instr.toAsm, Row.places, fitsAll, AsmPlace.fits, Instr.row, x.isLt, nn.isLt]
theorem WellFormed.seR (x : Reg) (y : Reg) : WellFormed.Statement (.seR x y) := by
  simp [WellFormed.Statement, Instr.wellFormed, AsmLine.wellFormed, Instr.toAsm, Row.places, fitsAll, AsmPlace.fits, Instr.row, x.isLt, y.isLt]
theorem WellFormed.ldI (x : Reg) (nn : Byte) : WellFormed.Statement (.ldI x nn) := by
  simp [WellFormed.Statement, Instr.wellFormed, AsmLine.wellFormed, Instr.toAsm, Row.places, fitsAll, AsmPlace.fits, Instr.row, x.isLt, nn.isLt]
theorem WellFormed.addI (x : Reg) (nn : Byte) : WellFormed.Statement (.addI x nn) := by
  simp [WellFormed.Statement, Instr.wellFormed, AsmLine.wellFormed, Instr.toAsm, Row.places, fitsAll, AsmPlace.fits, Instr.row, x.isLt, nn.isLt]
theorem WellFormed.ldR (x : Reg) (y : Reg) : WellFormed.Statement (.ldR x y) := by
  simp [WellFormed.Statement, Instr.wellFormed, AsmLine.wellFormed, Instr.toAsm, Row.places, fitsAll, AsmPlace.fits, Instr.row, x.isLt, y.isLt]
theorem WellFormed.orR (x : Reg) (y : Reg) : WellFormed.Statement (.orR x y) := by
  simp [WellFormed.Statement, Instr.wellFormed, AsmLine.wellFormed, Instr.toAsm, Row.places, fitsAll, AsmPlace.fits, Instr.row, x.isLt, y.isLt]
theorem WellFormed.andR (x : Reg) (y : Reg) : WellFormed.Statement (.andR x y) := by
  simp [WellFormed.Statement, Instr.wellFormed, AsmLine.wellFormed, Instr.toAsm, Row.places, fitsAll, AsmPlace.fits, Instr.row, x.isLt, y.isLt]
theorem WellFormed.xorR (x : Reg) (y : Reg) : WellFormed.Statement (.xorR x y) := by
  simp [WellFormed.Statement, Instr.wellFormed, AsmLine.wellFormed, Instr.toAsm, Row.places, fitsAll, AsmPlace.fits, Instr.row, x.isLt, y.isLt]
theorem WellFormed.addR (x : Reg) (y : Reg) : WellFormed.Statement (.addR x y) := by
  simp [WellFormed.Statement, Instr.wellFormed, AsmLine.wellFormed, Instr.toAsm, Row.places, fitsAll, AsmPlace.fits, Instr.row, x.isLt, y.isLt]
theorem WellFormed.sub (x : Reg) (y : Reg) : WellFormed.Statement (.sub x y) := by
  simp [WellFormed.Statement, Instr.wellFormed, AsmLine.wellFormed, Instr.toAsm, Row.places, fitsAll, AsmPlace.fits, Instr.row, x.isLt, y.isLt]
theorem WellFormed.shr (x : Reg) (y : Reg) : WellFormed.Statement (.shr x y) := by
  simp [WellFormed.Statement, Instr.wellFormed, AsmLine.wellFormed, Instr.toAsm, Row.places, fitsAll, AsmPlace.fits, Instr.row, x.isLt, y.isLt]
theorem WellFormed.subn (x : Reg) (y : Reg) : WellFormed.Statement (.subn x y) := by
  simp [WellFormed.Statement, Instr.wellFormed, AsmLine.wellFormed, Instr.toAsm, Row.places, fitsAll, AsmPlace.fits, Instr.row, x.isLt, y.isLt]
theorem WellFormed.shl (x : Reg) (y : Reg) : WellFormed.Statement (.shl x y) := by
  simp [WellFormed.Statement, Instr.wellFormed, AsmLine.wellFormed, Instr.toAsm, Row.places, fitsAll, AsmPlace.fits, Instr.row, x.isLt, y.isLt]
theorem WellFormed.sneR (x : Reg) (y : Reg) : WellFormed.Statement (.sneR x y) := by
  simp [WellFormed.Statement, Instr.wellFormed, AsmLine.wellFormed, Instr.toAsm, Row.places, fitsAll, AsmPlace.fits, Instr.row, x.isLt, y.isLt]
theorem WellFormed.ldIdx (nnn : BitVec 12) : WellFormed.Statement (.ldIdx nnn) := by
  simp [WellFormed.Statement, Instr.wellFormed, AsmLine.wellFormed, Instr.toAsm, Row.places, fitsAll, AsmPlace.fits, Instr.row, nnn.isLt]
theorem WellFormed.jpV0 (nnn : BitVec 12) : WellFormed.Statement (.jpV0 nnn) := by
  simp [WellFormed.Statement, Instr.wellFormed, AsmLine.wellFormed, Instr.toAsm, Row.places, fitsAll, AsmPlace.fits, Instr.row, nnn.isLt]
theorem WellFormed.rnd (x : Reg) (nn : Byte) : WellFormed.Statement (.rnd x nn) := by
  simp [WellFormed.Statement, Instr.wellFormed, AsmLine.wellFormed, Instr.toAsm, Row.places, fitsAll, AsmPlace.fits, Instr.row, x.isLt, nn.isLt]
theorem WellFormed.drw (x : Reg) (y : Reg) (n : BitVec 4) : WellFormed.Statement (.drw x y n) := by
  simp [WellFormed.Statement, Instr.wellFormed, AsmLine.wellFormed, Instr.toAsm, Row.places, fitsAll, AsmPlace.fits, Instr.row, x.isLt, y.isLt, n.isLt]
theorem WellFormed.skp (x : Reg) : WellFormed.Statement (.skp x) := by
  simp [WellFormed.Statement, Instr.wellFormed, AsmLine.wellFormed, Instr.toAsm, Row.places, fitsAll, AsmPlace.fits, Instr.row, x.isLt]
theorem WellFormed.sknp (x : Reg) : WellFormed.Statement (.sknp x) := by
  simp [WellFormed.Statement, Instr.wellFormed, AsmLine.wellFormed, Instr.toAsm, Row.places, fitsAll, AsmPlace.fits, Instr.row, x.isLt]
theorem WellFormed.ldRdt (x : Reg) : WellFormed.Statement (.ldRdt x) := by
  simp [WellFormed.Statement, Instr.wellFormed, AsmLine.wellFormed, Instr.toAsm, Row.places, fitsAll, AsmPlace.fits, Instr.row, x.isLt]
theorem WellFormed.ldKey (x : Reg) : WellFormed.Statement (.ldKey x) := by
  simp [WellFormed.Statement, Instr.wellFormed, AsmLine.wellFormed, Instr.toAsm, Row.places, fitsAll, AsmPlace.fits, Instr.row, x.isLt]
theorem WellFormed.ldWdt (x : Reg) : WellFormed.Statement (.ldWdt x) := by
  simp [WellFormed.Statement, Instr.wellFormed, AsmLine.wellFormed, Instr.toAsm, Row.places, fitsAll, AsmPlace.fits, Instr.row, x.isLt]
theorem WellFormed.ldWst (x : Reg) : WellFormed.Statement (.ldWst x) := by
  simp [WellFormed.Statement, Instr.wellFormed, AsmLine.wellFormed, Instr.toAsm, Row.places, fitsAll, AsmPlace.fits, Instr.row, x.isLt]
theorem WellFormed.addIdx (x : Reg) : WellFormed.Statement (.addIdx x) := by
  simp [WellFormed.Statement, Instr.wellFormed, AsmLine.wellFormed, Instr.toAsm, Row.places, fitsAll, AsmPlace.fits, Instr.row, x.isLt]
theorem WellFormed.ldFont (x : Reg) : WellFormed.Statement (.ldFont x) := by
  simp [WellFormed.Statement, Instr.wellFormed, AsmLine.wellFormed, Instr.toAsm, Row.places, fitsAll, AsmPlace.fits, Instr.row, x.isLt]
theorem WellFormed.bcd (x : Reg) : WellFormed.Statement (.bcd x) := by
  simp [WellFormed.Statement, Instr.wellFormed, AsmLine.wellFormed, Instr.toAsm, Row.places, fitsAll, AsmPlace.fits, Instr.row, x.isLt]
theorem WellFormed.stm (x : Reg) : WellFormed.Statement (.stm x) := by
  simp [WellFormed.Statement, Instr.wellFormed, AsmLine.wellFormed, Instr.toAsm, Row.places, fitsAll, AsmPlace.fits, Instr.row, x.isLt]
theorem WellFormed.ldm (x : Reg) : WellFormed.Statement (.ldm x) := by
  simp [WellFormed.Statement, Instr.wellFormed, AsmLine.wellFormed, Instr.toAsm, Row.places, fitsAll, AsmPlace.fits, Instr.row, x.isLt]

end Sys2Proof.Laws
end

