-- ==== Sys2Proof/Laws/Ports.lean ====
section
/-! SUPPORT. The `present` port: what it shows after a cycle that committed, and after one that faulted. -/

namespace Sys2Proof.Machine

/-- A cycle that committed strobed `present`, whether or not the stop request then halted the core (R120). -/
theorem presentStrobed_of_commit {s : State} (h : s.mode = .run) : presentStrobed (endCycle s) = true := by
  rw [endCycle_run h]
  unfold presentStrobed nextInput presentAndPoll
  cases (inputNow s).stopReq <;> simp [h]

/-- A cycle that a fatal fault ended strobed nothing, whatever the history holds (R246). -/
theorem presentStrobed_of_fault (s : State) {c : Cause} (h : c ≠ .stopRequest) (info : Nat) :
    presentStrobed (endCycle (raiseFault s c info)) = false := by
  rw [endCycle_halt rfl]
  unfold presentStrobed nextInput raiseFault haltWith
  simp [h]

end Sys2Proof.Machine
end

