-- ==== Sys2Proof/Tests/Slice0.lean ====
section
/-! SUPPORT. The model's own tests. Expected values come from spec/: the sample words and vectors of
95_test_vectors.md (their ids stand in the comments), the syntax of R108. Then, for every statement with
hypotheses, a witness: a concrete state and operands that meet them, at the boundaries of each clause. -/

open Sys2Proof Sys2Proof.Machine Sys2Proof.Claims

namespace Sys2Proof.Tests

/-! ## Ill-formed assembly lines, one for each check of WellFormed.lean -/

theorem test_wf_accepts : AsmLine.wellFormed ⟨.drw, [.reg 15, .reg 0, .num 15]⟩ = true := by decide
theorem test_wf_register_not_one_digit : AsmLine.wellFormed ⟨.skp, [.reg 16]⟩ = false := by decide
theorem test_wf_n_too_wide : AsmLine.wellFormed ⟨.drw, [.reg 0, .reg 1, .num 16]⟩ = false := by decide
theorem test_wf_nn_too_wide : AsmLine.wellFormed ⟨.ldI, [.reg 0, .num 256]⟩ = false := by decide
theorem test_wf_nnn_too_wide : AsmLine.wellFormed ⟨.jp, [.num 4096]⟩ = false := by decide
theorem test_wf_number_for_register : AsmLine.wellFormed ⟨.orR, [.reg 1, .num 2]⟩ = false := by decide
theorem test_wf_register_for_number : AsmLine.wellFormed ⟨.call, [.reg 3]⟩ = false := by decide
theorem test_wf_operand_missing : AsmLine.wellFormed ⟨.addI, [.reg 3]⟩ = false := by decide
theorem test_wf_operand_too_many : AsmLine.wellFormed ⟨.cls, [.num 0]⟩ = false := by decide
theorem test_assemble_refuses_ill_formed : assemble ⟨.ldI, [.reg 0, .num 256]⟩ = none := by decide

/-! ## Decoding: every row's sample word of 3.1, written out from the layouts of R93, and the refusals -/

theorem test_decode_format_Z : decode 0x00E0 = .ok .cls ∧ decode 0x00EE = .ok .ret := by decide
theorem test_decode_format_A : decode 0x1ABC = .ok (.jp 0xABC) ∧ decode 0x2300 = .ok (.call 0x300) ∧
    decode 0xA202 = .ok (.ldIdx 0x202) ∧ decode 0xB300 = .ok (.jpV0 0x300) := by decide
theorem test_decode_format_XI : decode 0x3A42 = .ok (.seI 10 0x42) ∧ decode 0x4A42 = .ok (.sneI 10 0x42) ∧
    decode 0x6005 = .ok (.ldI 0 0x05) ∧ decode 0x7A10 = .ok (.addI 10 0x10) ∧
    decode 0xC30F = .ok (.rnd 3 0x0F) := by decide
theorem test_decode_format_XY : decode 0x8120 = .ok (.ldR 1 2) ∧ decode 0x8121 = .ok (.orR 1 2) ∧
    decode 0x8122 = .ok (.andR 1 2) ∧ decode 0x8123 = .ok (.xorR 1 2) ∧ decode 0x8124 = .ok (.addR 1 2) ∧
    decode 0x8125 = .ok (.sub 1 2) ∧ decode 0x8126 = .ok (.shr 1 2) ∧ decode 0x8127 = .ok (.subn 1 2) ∧
    decode 0x812E = .ok (.shl 1 2) := by decide
theorem test_decode_low_nibble_ignored : decode 0x5120 = .ok (.seR 1 2) ∧ decode 0x5337 = .ok (.seR 3 3) ∧
    decode 0x9120 = .ok (.sneR 1 2) ∧ decode 0x9ABF = .ok (.sneR 10 11) := by decide
theorem test_decode_format_XYN : decode 0xD015 = .ok (.drw 0 1 5) := by decide
theorem test_decode_format_XF : decode 0xE19E = .ok (.skp 1) ∧ decode 0xE1A1 = .ok (.sknp 1) ∧
    decode 0xF507 = .ok (.ldRdt 5) ∧ decode 0xF30A = .ok (.ldKey 3) ∧ decode 0xF515 = .ok (.ldWdt 5) ∧
    decode 0xF618 = .ok (.ldWst 6) ∧ decode 0xF31E = .ok (.addIdx 3) ∧ decode 0xF229 = .ok (.ldFont 2) ∧
    decode 0xF433 = .ok (.bcd 4) ∧ decode 0xF255 = .ok (.stm 2) ∧ decode 0xF165 = .ok (.ldm 1) := by decide
theorem test_decode_refuses : decode 0x0000 = .error .class0 ∧ decode 0x01E0 = .error .class0 ∧
    decode 0x8128 = .error .class8 ∧ decode 0x812F = .error .class8 ∧ decode 0xE19F = .error .classE ∧
    decode 0xF130 = .error .classF := by decide
theorem test_decode_low_nibble_counts_under_the_other_parameter :
    decodeWith false 0x5337 = .error .lowNibble59 ∧ decodeWith false 0x5330 = .ok (.seR 3 3) := by decide
theorem test_decodeTableWord : decodeTableWord 16 0xD015 = some (.drw 0 1 5) ∧
    decodeTableWord 16 0x8128 = none := by decide

/-! ## One core cycle -/

/-- The reset state standing at `pc`, with quiet ports. -/
def standingAt (pc : Word) : State := { State.reset with pc := pc, inputs := [quietInput] }

/-- The reset state at 0x0200 with some registers set. -/
def withRegs (rs : List (Reg × Byte)) : State := rs.foldl (fun s p => setV s p.1 p.2) (standingAt 0x200)

/-- Some bytes of memory set. -/
def withBytes (s : State) (a : Nat) (bs : List Byte) : State := { s with mem := putBytes s.mem a bs }

/-- The keys pressed during the coming core cycle. -/
def withKeys (s : State) (k : BitVec 16) : State := { s with inputs := [{ quietInput with keys := k }] }

/-- The byte on `rnd` during the coming core cycle. -/
def withRnd (s : State) (b : Byte) : State := { s with inputs := [{ quietInput with rnd := b }] }

/-- `stop_req` is 1 during the coming core cycle. -/
def withStop (s : State) : State := { s with inputs := [{ quietInput with stopReq := true }] }

/-- One core cycle on the word `w` at `PC` leaves a state with the property `p`. -/
def ran (s : State) (w : Nat) (p : State → Bool) : Bool :=
  match step (s.withFetchWord 16 w) with
  | .next t => p t
  | .fault _ => false
  | .refused _ => false

/-- The registers hold these bytes. -/
def hold (t : State) (rs : List (Reg × Byte)) : Bool := rs.all fun p => getV t p.1 == p.2

/-- The core halted at `PC = epc` with this cause and datum. -/
def halted (t : State) (c : Cause) (epc einfo : Word) : Bool :=
  t.mode == .halt && t.cause == c && t.epc == epc && t.pc == epc && t.einfo == einfo

-- Control: K1, K3, K7, K11, K12, K14, K18, K21, K24, K25, K28, K31.
theorem test_ret : ran { standingAt 0x300 with sp := 1, stk := (standingAt 0).stk.set 0 0x204 } 0x00EE
    (fun t => t.pc == 0x204 && t.sp == 0) = true := by decide
theorem test_ret_empty : ran (standingAt 0x200) 0x00EE (halted · .stackUnderflow 0x200 0) = true := by decide
theorem test_jp_below : ran (standingAt 0x200) 0x11FF (halted · .pcBounds 0x200 0x1FF) = true := by decide
theorem test_call : ran { standingAt 0x200 with sp := 15 } 0x2300
    (fun t => t.pc == 0x300 && t.sp == 16 && t.stk[15] == 0x202) = true := by decide
theorem test_call_full : ran { standingAt 0x200 with sp := 16 } 0x2100
    (halted · .stackOverflow 0x200 16) = true := by decide
theorem test_jpV0_not_truncated : ran (withRegs [(0, 0xFF)]) 0xBFFF (·.pc == 0x10FE) = true := by decide
theorem test_seI : ran (withRegs [(10, 0x42)]) 0x3A42 (·.pc == 0x204) = true := by decide
theorem test_sneI : ran (withRegs [(10, 0x00)]) 0x4A42 (·.pc == 0x204) = true := by decide
theorem test_seR : ran (withRegs [(1, 7), (2, 8)]) 0x5120 (·.pc == 0x202) = true := by decide
theorem test_sneR : ran (withRegs [(1, 7), (2, 8)]) 0x9120 (·.pc == 0x204) = true := by decide
theorem test_skip_past_the_top : ran (standingAt 0xFFFC) 0x3000 (halted · .pcBounds 0xFFFC 0) = true := by decide

-- Load and ALU: A1, A3, A8, A9 to A11, A22, A24, A34, A31, A37, A47, A49, A56, A66.
theorem test_ldI : ran (standingAt 0x200) 0x6005 (fun t => hold t [(0, 5)] && t.pc == 0x202) = true := by decide
theorem test_addI : ran (withRegs [(10, 0xF8)]) 0x7A10 (hold · [(10, 8), (15, 0)]) = true := by decide
theorem test_ldR : ran (withRegs [(15, 1)]) 0x81F0 (hold · [(1, 1), (15, 1)]) = true := by decide
theorem test_or : ran (withRegs [(1, 0xF0), (2, 0x0C), (15, 1)]) 0x8121
    (hold · [(1, 0xFC), (15, 1)]) = true := by decide
theorem test_and : ran (withRegs [(1, 0xF0), (2, 0x3C), (15, 1)]) 0x8122
    (hold · [(1, 0x30), (15, 1)]) = true := by decide
theorem test_xor : ran (withRegs [(1, 0xF0), (2, 0x3C), (15, 1)]) 0x8123
    (hold · [(1, 0xCC), (15, 1)]) = true := by decide
theorem test_add_into_vf : ran (withRegs [(15, 0xC8), (2, 0x64)]) 0x8F24 (hold · [(15, 1)]) = true := by decide
theorem test_add_from_vf : ran (withRegs [(1, 0xFF), (15, 1)]) 0x81F4 (hold · [(1, 0), (15, 1)]) = true := by decide
theorem test_sub : ran (withRegs [(1, 0), (2, 0xFF)]) 0x8125 (hold · [(1, 1), (15, 0)]) = true := by decide
theorem test_sub_into_vf : ran (withRegs [(15, 5), (2, 0x0A)]) 0x8F25 (hold · [(15, 0)]) = true := by decide
theorem test_shr : ran (withRegs [(1, 0xAA), (2, 5)]) 0x8126 (hold · [(1, 2), (15, 1), (2, 5)]) = true := by decide
theorem test_shr_vf_itself : ran (withRegs [(15, 2)]) 0x8FF6 (hold · [(15, 0)]) = true := by decide
theorem test_subn : ran (withRegs [(1, 0x0A), (2, 5)]) 0x8127 (hold · [(1, 0xFB), (15, 0)]) = true := by decide
theorem test_shl : ran (withRegs [(1, 0xAA), (2, 0x81)]) 0x812E (hold · [(1, 2), (15, 1)]) = true := by decide
theorem test_rnd : ran (withRnd (standingAt 0x200) 0xA7) 0xC30F (hold · [(3, 7)]) = true := by decide

-- Index and memory: M2, M5, M11, M22, M23, M25, M29, M32, M35.
theorem test_ldIdx : ran (standingAt 0x200) 0xAFFF (·.i == 0xFFF) = true := by decide
theorem test_addIdx_wraps : ran { withRegs [(3, 1)] with i := 0xFFFF } 0xF31E
    (fun t => t.i == 0 && hold t [(15, 0)]) = true := by decide
theorem test_ldFont : ran (withRegs [(2, 0x1A)]) 0xF229 (·.i == 0x32) = true := by decide
theorem test_bcd_at_the_top : ran { withRegs [(4, 0xEA)] with i := 0xFFFD } 0xF433
    (fun t => bytesFrom t.mem 0xFFFD 3 == [2, 3, 4] && t.pc == 0x202) = true := by decide
theorem test_bcd_past_the_top : ran { withRegs [(4, 0xEA)] with i := 0xFFFE } 0xF433
    (fun t => halted t .memBounds 0x200 0 && bytesFrom t.mem 0xFFFE 2 == [0, 0]) = true := by decide
theorem test_stm : ran { withRegs [(0, 0x11), (1, 0x22), (2, 0x33), (3, 0x44)] with i := 0x500 } 0xF255
    (fun t => bytesFrom t.mem 0x500 4 == [0x11, 0x22, 0x33, 0] && t.i == 0x500) = true := by decide
theorem test_stm_past_the_top : ran { withRegs [(0, 0xA0)] with i := 0xFFF1 } 0xFF55
    (fun t => halted t .memBounds 0x200 0 && byteAt t.mem 0xFFF1 == 0) = true := by decide
theorem test_ldm : ran (withRegs [(2, 0x77)]) 0xF165 (hold · [(0, 0xF0), (1, 0x90), (2, 0x77)]) = true := by decide
theorem test_ldm_past_the_top : ran { withBytes (withRegs [(0, 9)]) 0xFFFF [0x42] with i := 0xFFFF } 0xF165
    (fun t => halted t .memBounds 0x200 0 && hold t [(0, 9)]) = true := by decide

-- Display: G20, G1 (the clipped corner), G6.
theorem test_cls : ran { standingAt 0x200 with fb := togglePixel blankScreen 31 63 } 0x00E0
    (fun t => !pixelAt t.fb 31 63) = true := by decide
theorem test_drw_clips : ran (withRegs [(0, 0x3E), (1, 0x1E)]) 0xD015
    (fun t => pixelAt t.fb 30 62 && pixelAt t.fb 30 63 && pixelAt t.fb 31 62 && !pixelAt t.fb 31 63 &&
      !pixelAt t.fb 30 0 && !pixelAt t.fb 0 62 && hold t [(15, 0)]) = true := by decide
theorem test_drw_collides :
    ran { withBytes (withRegs [(0, 0x3C)]) 0x300 [0xFF] with i := 0x300, fb := togglePixel blankScreen 0 63 } 0xD011
    (fun t => !pixelAt t.fb 0 59 && pixelAt t.fb 0 60 && pixelAt t.fb 0 62 && !pixelAt t.fb 0 63 &&
      !pixelAt t.fb 0 0 && hold t [(15, 1)]) = true := by decide

-- Keypad and timers: T4, T7, T11, T13, T23, T26, T28.
theorem test_skp : ran (withKeys (withRegs [(1, 0x1A)]) 0x0400) 0xE19E (·.pc == 0x204) = true := by decide
theorem test_sknp : ran (withKeys (withRegs [(1, 5)]) 0xFFDF) 0xE1A1 (·.pc == 0x204) = true := by decide
theorem test_ldKey_waits : ran (withRegs [(3, 0x77)]) 0xF30A
    (fun t => t.pc == 0x200 && t.wait && hold t [(3, 0x77)]) = true := by decide
theorem test_ldKey_lowest : ran (withKeys { standingAt 0x200 with wait := true } 0x0090) 0xF30A
    (fun t => hold t [(3, 4)] && t.pc == 0x202 && !t.wait) = true := by decide
theorem test_ldRdt_after_tick : ran { standingAt 0x200 with dt := 0x2A, tickPend := true } 0xF507
    (fun t => t.dt == 0x29 && hold t [(5, 0x29)] && !t.tickPend) = true := by decide
theorem test_ldWdt_after_tick : ran { withRegs [(5, 0x3C)] with dt := 9, tickPend := true } 0xF515
    (fun t => t.dt == 0x3C && !t.tickPend) = true := by decide
theorem test_ldWst : ran (withRegs [(6, 2)]) 0xF618 (fun t => t.st == 2 && soundOn t) = true := by decide

-- Reports, the stop request, reset and the loader: R245, X3, R252, R120, R281, R284.
theorem test_unrecognised_word : ran (standingAt 0x200) 0x8128
    (fun t => t.ill && illReports t == [(0x200, 0x8128)] && t.pc == 0x202 && t.mode == .run) = true := by decide
theorem test_unrecognised_word_at_the_top : ran (standingAt 0xFFFE) 0x0000
    (fun t => t.ill && halted t .pcBounds 0xFFFE 0 && !presentStrobed t) = true := by decide
theorem test_stop_request : ran (withStop (standingAt 0x200)) 0x1200
    (fun t => halted t .stopRequest 0x200 0 && presentStrobed t) = true := by decide
theorem test_no_present_after_fault : ran { standingAt 0x200 with events := [.present] } 0x00EE
    (fun t => halted t .stackUnderflow 0x200 0 && !presentStrobed t) = true := by decide
theorem test_present_after_commit : ran (standingAt 0x200) 0x6005 presentStrobed = true := by decide
theorem test_halt_has_no_step :
    (match step { State.reset with mode := .halt } with | .fault .halted => true | _ => false) = true := by decide
theorem test_boot : (bootWith State.reset [0x12, 0x00]).map fetch = some 0x1200 := by decide

/-! ## Witnesses -/

/-- Every clause of `GoesOn`: `PC` at the lowest and highest place that goes on, and just past it. -/
theorem witness_GoesOn : NextInRange (standingAt 0x0200) ∧ NextInRange (standingAt 0xFFFC) ∧
    0xFFFE < (standingAt 0xFFFD).pc.toNat + 2 ∧ 0xFFFE < (standingAt 0xFFFE).pc.toNat + 2 := by
  unfold NextInRange; decide

/-- Every clause of `SkipsWhen`, for both values of its condition. -/
theorem witness_SkipsWhen : SkipInRange (standingAt 0x0200) ∧ SkipInRange (standingAt 0xFFFA) ∧
    NextInRange (standingAt 0xFFFC) ∧ 0xFFFE < (standingAt 0xFFFB).pc.toNat + 4 ∧
    0xFFFE < (standingAt 0xFFFD).pc.toNat + 2 := by
  unfold NextInRange SkipInRange; decide

theorem witness_LoadAndCopyRegister : (classField 0x6000 = 0x6 ∧ classField 0x6FFF = 0x6) ∧
    (classField 0x8FF0 = 0x8 ∧ nField 0x8FF0 = 0x0) ∧ NextInRange (standingAt 0x0200) :=
  ⟨by decide, by decide, witness_GoesOn.1⟩

theorem witness_AddImmediateWraps : (classField 0x7000 = 0x7 ∧ classField 0x7FFF = 0x7) ∧
    NextInRange (withRegs [(10, 0xF8)]) := by
  unfold NextInRange; decide

theorem witness_BitwiseOperations : (classField 0x8001 = 0x8 ∧ nField 0x8001 = 0x1) ∧
    (classField 0x8FF2 = 0x8 ∧ nField 0x8FF2 = 0x2) ∧ (classField 0x8123 = 0x8 ∧ nField 0x8123 = 0x3) ∧
    NextInRange (standingAt 0xFFFC) :=
  ⟨by decide, by decide, by decide, witness_GoesOn.2.1⟩

theorem witness_AddWithCarryOut : (classField 0x8F24 = 0x8 ∧ nField 0x8F24 = 0x4) ∧
    NextInRange (withRegs [(15, 0xC8), (2, 0x64)]) := by
  unfold NextInRange; decide

theorem witness_SubtractWithNoBorrowFlag : (classField 0x8125 = 0x8 ∧ nField 0x8125 = 0x5) ∧
    (classField 0x8127 = 0x8 ∧ nField 0x8127 = 0x7) ∧ NextInRange (withRegs [(1, 7), (2, 7)]) := by
  unfold NextInRange; decide

theorem witness_ShiftByOne : (classField 0x8126 = 0x8 ∧ nField 0x8126 = 0x6) ∧
    (classField 0x812E = 0x8 ∧ nField 0x812E = 0xE) ∧ NextInRange (withRegs [(2, 0x81)]) := by
  unfold NextInRange; decide

theorem witness_RandomByteUnderMask : (classField 0xC000 = 0xC ∧ classField 0xCFFF = 0xC) ∧
    NextInRange (withRnd (standingAt 0x200) 0xA7) := by
  unfold NextInRange; decide

theorem witness_FlagsAccountForLostBits : (14 : Reg) ≠ 15 ∧ NextInRange (standingAt 0xFFFC) ∧
    (∃ t, exec (.addR 14 15) (standingAt 0xFFFC) = .next t) ∧ (∃ t, exec (.sub 14 15) (standingAt 0xFFFC) = .next t) ∧
    (∃ t, exec (.subn 14 15) (standingAt 0xFFFC) = .next t) ∧ (∃ t, exec (.shr 14 15) (standingAt 0xFFFC) = .next t) ∧
    (∃ t, exec (.shl 14 15) (standingAt 0xFFFC) = .next t) :=
  ⟨by decide, witness_GoesOn.2.1, ⟨_, rfl⟩, ⟨_, rfl⟩, ⟨_, rfl⟩, ⟨_, rfl⟩, ⟨_, rfl⟩⟩

theorem witness_JumpTargets : (classField 0x1FFF = 0x1 ∧ classField 0xB000 = 0xB) ∧
    0x200 ≤ (0x200 : BitVec 12).toNat ∧ (0xFFF : BitVec 12).toNat ≤ 0xFFFE ∧ (0x1FF : BitVec 12).toNat < 0x200 ∧
    (0xFFF : BitVec 12).toNat + (getV (withRegs [(0, 0xFF)]) 0).toNat ≤ 0xFFFE ∧
    0x200 ≤ (0x1F0 : BitVec 12).toNat + (getV (withRegs [(0, 0x10)]) 0).toNat ∧
    (0x1F0 : BitVec 12).toNat + (getV (withRegs [(0, 0x0F)]) 0).toNat < 0x200 := by decide

/-- The stack filled to `k` entries, each of them `w`. -/
def stacked (k : Fin 17) (w : Word) : State := { standingAt 0x200 with sp := k, stk := Vector.replicate 16 w }

theorem witness_CallPushesReturnAddress : classField 0x2FFF = 0x2 ∧
    ((stacked 0 0).sp.val < 16 ∧ (stacked 15 0).sp.val < 16 ∧ 0x200 ≤ (0x200 : BitVec 12).toNat) ∧
    (stacked 16 0).sp.val = 16 ∧ (0x1FF : BitVec 12).toNat < 0x200 := by decide

theorem witness_ReturnPopsIntoPc :
    (0 < (stacked 1 0x200).sp.val ∧ (stacked 1 0x200).sp.val - 1 < 16 ∧ 0x200 ≤ ((stacked 1 0x200).stk[0]).toNat) ∧
    (0 < (stacked 16 0xFFFE).sp.val ∧ (stacked 16 0xFFFE).sp.val - 1 < 16 ∧
      ((stacked 16 0xFFFE).stk[15]).toNat ≤ 0xFFFE) ∧
    (stacked 0 0).sp.val = 0 ∧ ((stacked 1 0x1FF).stk[0]).toNat < 0x200 ∧
    0xFFFE < ((stacked 1 0xFFFF).stk[0]).toNat := by decide

theorem witness_CallReturnRoundTrip : ∃ t, (standingAt 0x200).sp.val < 16 ∧ 0x200 ≤ (0x300 : BitVec 12).toNat ∧
    NextInRange (standingAt 0x200) ∧ exec (.call 0x300) (standingAt 0x200) = .next t ∧ t.stk = t.stk ∧ t.sp = t.sp :=
  ⟨_, by decide, by decide, witness_GoesOn.1, rfl, rfl, rfl⟩

theorem witness_RegisterSkips : classField 0x3000 = 0x3 ∧ classField 0x4FFF = 0x4 ∧ classField 0x5337 = 0x5 ∧
    classField 0x9ABF = 0x9 ∧ SkipInRange (standingAt 0xFFFA) ∧
    (decide (getV (standingAt 0xFFFC) 0 = 0) = true ∧ 0xFFFE < (standingAt 0xFFFC).pc.toNat + 4) ∧
    (decide (getV (standingAt 0xFFFC) 0 = 1) = false ∧ NextInRange (standingAt 0xFFFC)) :=
  ⟨by decide, by decide, by decide, by decide, witness_SkipsWhen.2.1, by decide, by decide, witness_GoesOn.2.1⟩

theorem witness_EveryInstructionAdvancesPcAsRuled :
    (ownFault (.jp 0x200) (standingAt 0x200) = false ∧ ruleNext (.jp 0x200) (standingAt 0x200) = 0x200) ∧
    (ownFault .cls (standingAt 0xFFFC) = false ∧ ruleNext .cls (standingAt 0xFFFC) = 0xFFFE) ∧
    (ownFault (.ldKey 3) (standingAt 0xFFFE) = false ∧ ruleNext (.ldKey 3) (standingAt 0xFFFE) = 0xFFFE) ∧
    (ownFault .ret (stacked 16 0xFFFE) = false ∧ ruleNext .ret (stacked 16 0xFFFE) = 0xFFFE) ∧
    ownFault (.stm 15) { standingAt 0x200 with i := 0xFFF0 } = false := by decide

theorem witness_PcBoundsAtCommit :
    (ownFault (.jp 0x1FF) (standingAt 0x200) = false ∧ ruleNext (.jp 0x1FF) (standingAt 0x200) < 0x200) ∧
    (ownFault (.bcd 0) (standingAt 0xFFFD) = false ∧ 0xFFFE < ruleNext (.bcd 0) (standingAt 0xFFFD)) := by decide

theorem witness_OwnFaultBeatsPcBounds : ownFault (.call 0x100) (stacked 16 0) = true ∧
    ownFault .ret (standingAt 0xFFFE) = true ∧ ownFault (.drw 0 0 15) { standingAt 0xFFFE with i := 0xFFF2 } = true ∧
    ownFault (.bcd 0) { standingAt 0xFFFE with i := 0xFFFE } = true ∧
    ownFault (.stm 15) { standingAt 0x200 with i := 0xFFF1 } = true ∧
    ownFault (.ldm 15) { standingAt 0x200 with i := 0xFFF1 } = true := by decide

theorem witness_IndexRegisterWrites : classField 0xAFFF = 0xA ∧ (classField 0xF31E = 0xF ∧ nnField 0xF31E = 0x1E) ∧
    (classField 0xF229 = 0xF ∧ nnField 0xF229 = 0x29) ∧ NextInRange (standingAt 0xFFFC) ∧
    0xFFFE < (standingAt 0xFFFD).pc.toNat + 2 :=
  ⟨by decide, by decide, by decide, witness_GoesOn.2.1, by decide⟩

/-- `I` at `a`, `PC` at `pc`. -/
def pointing (pc a : Word) : State := { standingAt pc with i := a }

theorem witness_BcdStoresDecimalDigits : (classField 0xF433 = 0xF ∧ nnField 0xF433 = 0x33) ∧
    ((pointing 0xFFFC 0xFFFD).mem.wf = true ∧ NextInRange (pointing 0xFFFC 0xFFFD) ∧
      (pointing 0xFFFC 0xFFFD).i.toNat + 2 < 65536) ∧
    65536 ≤ (pointing 0x200 0xFFFE).i.toNat + 2 ∧
    ((pointing 0xFFFD 0).i.toNat + 2 < 65536 ∧ 0xFFFE < (pointing 0xFFFD 0).pc.toNat + 2) := by
  unfold NextInRange; decide

theorem witness_StoreRegisterRange : (classField 0xF255 = 0xF ∧ nnField 0xF255 = 0x55) ∧
    ((pointing 0xFFFC 0xFFF0).mem.wf = true ∧ NextInRange (pointing 0xFFFC 0xFFF0) ∧
      (pointing 0xFFFC 0xFFF0).i.toNat + (15 : Reg).val < 65536) ∧
    65536 ≤ (pointing 0x200 0xFFF1).i.toNat + (15 : Reg).val ∧
    ((pointing 0xFFFD 0xFFFF).i.toNat + (0 : Reg).val < 65536 ∧ 0xFFFE < (pointing 0xFFFD 0xFFFF).pc.toNat + 2) := by
  unfold NextInRange; decide

theorem witness_LoadRegisterRange : (classField 0xF165 = 0xF ∧ nnField 0xF165 = 0x65) ∧
    (NextInRange (pointing 0xFFFC 0xFFF0) ∧ (pointing 0xFFFC 0xFFF0).i.toNat + (15 : Reg).val < 65536) ∧
    65536 ≤ (pointing 0x200 0xFFF1).i.toNat + (15 : Reg).val ∧
    ((pointing 0xFFFD 0xFFFF).i.toNat + (0 : Reg).val < 65536 ∧ 0xFFFE < (pointing 0xFFFD 0xFFFF).pc.toNat + 2) := by
  unfold NextInRange; decide

theorem witness_StoreThenLoadRestoresRegisters : ∃ t, (pointing 0x200 0xFFF0).mem.wf = true ∧
    NextInRange (pointing 0x200 0xFFF0) ∧ (pointing 0x200 0xFFF0).i.toNat + (15 : Reg).val < 65536 ∧
    exec (.stm 15) (pointing 0x200 0xFFF0) = .next t ∧ t.mem = t.mem ∧ t.i = t.i ∧ NextInRange t :=
  ⟨_, by decide, by unfold NextInRange; decide, by decide, rfl, rfl, rfl, by unfold NextInRange; decide⟩

theorem witness_StoreIsSeenByNextFetch : ∃ t, (pointing 0x200 0xFFF0).mem.wf = true ∧
    NextInRange (pointing 0x200 0xFFF0) ∧ (pointing 0x200 0xFFF0).i.toNat + (15 : Reg).val < 65536 ∧
    (14 : Reg).val < (15 : Reg).val ∧ exec (.stm 15) (pointing 0x200 0xFFF0) = .next t ∧
    ({ t with pc := 0xFFFE } : State).mem = t.mem ∧
    ({ t with pc := 0xFFFE } : State).pc.toNat = (pointing 0x200 0xFFF0).i.toNat + (14 : Reg).val :=
  ⟨_, by decide, by unfold NextInRange; decide, by decide, by decide, rfl, rfl, by decide⟩

theorem witness_ClearScreenClearsEveryPixel : NextInRange (standingAt 0xFFFC) ∧
    0xFFFE < (standingAt 0xFFFD).pc.toNat + 2 ∧ (31 < 32 ∧ 63 < 64) :=
  ⟨witness_GoesOn.2.1, by decide, by decide⟩

theorem witness_DrawXorsSpriteAndReportsCollision : classField 0xDFFF = 0xD ∧
    (NextInRange (pointing 0xFFFC 0xFFF1) ∧ (pointing 0xFFFC 0xFFF1).i.toNat + (15 : BitVec 4).toNat ≤ 65536) ∧
    (0 : BitVec 4).toNat = 0 ∧
    (0 < (15 : BitVec 4).toNat ∧ 65536 < (pointing 0x200 0xFFF2).i.toNat + (15 : BitVec 4).toNat) ∧
    0xFFFE < (pointing 0xFFFD 0).pc.toNat + 2 := by
  unfold NextInRange; decide

theorem witness_BlitLoopsMeetPixelFormula :
    31 < 32 ∧ 63 < 64 ∧ (List.replicate 15 (0xFF : Byte)).length ≤ 15 ∧ ([] : List Byte).length ≤ 15 := by decide

/-- A sprite at the far corner wraps to the near one, under the parameter this hardware does not have. -/
theorem witness_DrawingTwiceRestoresTheScreen : 31 < 32 ∧ 63 < 64 ∧ [(0xC0 : Byte), 0x80].length ≤ 15 ∧
    pixelAt (blitSprite true blankScreen 31 63 [0xC0, 0x80]).fb 0 63 = true ∧
    pixelAt (blitSprite true blankScreen 31 63 [0xC0, 0x80]).fb 31 0 = true := by decide

theorem witness_KeySkips : (classField 0xE19E = 0xE ∧ nnField 0xE19E = 0x9E) ∧
    (classField 0xE1A1 = 0xE ∧ nnField 0xE1A1 = 0xA1) ∧ SkipInRange (standingAt 0xFFFA) ∧
    ((inputNow (withKeys (withRegs [(1, 0xFF)]) 0x8000)).keys.getLsbD
      ((getV (withKeys (withRegs [(1, 0xFF)]) 0x8000) 1).toNat % 16) = true) ∧
    ((inputNow (standingAt 0xFFFC)).keys.getLsbD ((getV (standingAt 0xFFFC) 1).toNat % 16) = false ∧
      NextInRange (standingAt 0xFFFC)) :=
  ⟨by decide, by decide, witness_SkipsWhen.2.1, by decide, by decide, witness_GoesOn.2.1⟩

theorem witness_KeyWaitPollsUntilPressed : (classField 0xF30A = 0xF ∧ nnField 0xF30A = 0x0A) ∧
    (PcInRange (standingAt 0xFFFE) ∧ (inputNow (standingAt 0xFFFE)).keys = 0) ∧
    ((inputNow (withKeys (standingAt 0x200) 0x8000)).keys.getLsbD 15 = true ∧
      ∀ j < 15, (inputNow (withKeys (standingAt 0x200) 0x8000)).keys.getLsbD j = false) ∧
    (inputNow (withKeys (standingAt 0x200) 0xFFFF)).keys.getLsbD 0 = true ∧ NextInRange (standingAt 0x200) := by
  unfold PcInRange NextInRange; decide

theorem witness_TimerAccess : (classField 0xF507 = 0xF ∧ nnField 0xF507 = 0x07) ∧
    (classField 0xF515 = 0xF ∧ nnField 0xF515 = 0x15) ∧ (classField 0xF618 = 0xF ∧ nnField 0xF618 = 0x18) ∧
    NextInRange (standingAt 0xFFFC) :=
  ⟨by decide, by decide, by decide, witness_GoesOn.2.1⟩

/-- A cycle that waits, and one that faults, from a running core. -/
theorem witness_WaitFlagFollowsKeyWait :
    (∃ t, (standingAt 0x200).mode = .run ∧ exec (.ldKey 3) (standingAt 0x200) = .next t ∧ t.mode = .run) ∧
    (∃ t, (standingAt 0x200).mode = .run ∧ exec .ret (standingAt 0x200) = .next t ∧ t.mode = .halt) :=
  ⟨⟨_, rfl, rfl, rfl⟩, ⟨_, rfl, rfl, rfl⟩⟩

/-- The core cycle of a word placed at 0x0200. -/
def placed (w : Nat) : State := (standingAt 0x200).withFetchWord 16 w

theorem witness_TimersChangeOnlyByTickAndTheirWrites : ∃ t, step (placed 0x6005) = .next t ∧
    decode (fetch (placed 0x6005)) = .ok (.ldI 0 5) := ⟨_, rfl, by decide⟩

theorem witness_OnlySamplingInstructionsSeeThePorts : ∃ t,
    (readsKeys (.skp 1) = true ∧
      (inputNow (withPorts (standingAt 0x200) [{ quietInput with rnd := 0xFF }] 7)).keys =
        (inputNow (standingAt 0x200)).keys) ∧
    (readsRnd (.rnd 1 0xFF) = true ∧
      (inputNow (withPorts (standingAt 0x200) [{ quietInput with keys := 0xFFFF }] 7)).rnd =
        (inputNow (standingAt 0x200)).rnd) ∧
    readsKeys (.rnd 1 0xFF) = false ∧ exec (.rnd 1 0xFF) (standingAt 0x200) = .next t :=
  ⟨_, by decide, by decide, by decide, rfl⟩

theorem witness_RegistersOutsideDestinationsKeep :
    (∃ t, exec (.ldm 14) (standingAt 0x200) = .next t ∧ mayWrite (.ldm 14) 15 = false) ∧
    (∃ t, exec (.addR 3 4) (standingAt 0x200) = .next t ∧ mayWrite (.addR 3 4) 4 = false) :=
  ⟨⟨_, rfl, by decide⟩, ⟨_, rfl, by decide⟩⟩

theorem witness_MemoryOutsideStoresKeeps :
    (∃ t, exec (.bcd 0) (pointing 0x200 0xFFFD) = .next t ∧ 0xFFFC < effectiveAddress (pointing 0x200 0xFFFD) 0) ∧
    (∃ t, exec (.stm 2) (pointing 0x200 0x500) = .next t ∧
      effectiveAddress (pointing 0x200 0x500) 0 + regCount 2 ≤ 0x503) ∧
    (∃ t, exec (.ldm 2) (pointing 0x200 0x500) = .next t) :=
  ⟨⟨_, rfl, by decide⟩, ⟨_, rfl, by decide⟩, ⟨_, rfl⟩⟩

theorem witness_EachUnitHasItsWriters : ∃ t, exec (.ldI 0 5) (standingAt 0x200) = .next t := ⟨_, rfl⟩

theorem witness_StatusRegistersAreOutOfReach :
    ∃ t, (standingAt 0x200).mode = .run ∧ exec (.stm 15) (standingAt 0x200) = .next t ∧ t.mode = .run :=
  ⟨_, rfl, rfl, rfl⟩

theorem witness_StepChangesOnlyStoredBytes : ∃ t, step (setV (placed 0xF055) 0 0x11) = .next t ∧
    byteAt t.mem 0 ≠ byteAt (setV (placed 0xF055) 0 0x11).mem 0 := ⟨_, rfl, by decide⟩

theorem witness_StepRunsTheDecodedInstruction : (placed 0xD015).mode = .run ∧ PcInRange (placed 0xD015) ∧
    decode (byteAt (placed 0xD015).mem (placed 0xD015).pc.toNat ++
      byteAt (placed 0xD015).mem ((placed 0xD015).pc.toNat + 1)) = .ok (.drw 0 1 5) := by
  unfold PcInRange; decide

theorem witness_UnrecognisedWordIsReportedAndSkipped :
    (State.reset.mode = .run ∧ PcInRange State.reset ∧ decode (fetch State.reset) = .error .class0 ∧
      State.reset.pc.toNat + 2 ≤ 0xFFFE) ∧
    (PcInRange (standingAt 0xFFFE) ∧ decode (fetch (standingAt 0xFFFE)) = .error .class0 ∧
      0xFFFE < (standingAt 0xFFFE).pc.toNat + 2) := by
  unfold PcInRange; decide

theorem witness_CycleEndsWithPresentAndStopPoll :
    ((standingAt 0x200).mode = .run ∧ (inputNow (standingAt 0x200)).stopReq = false) ∧
    ((withStop (standingAt 0x200)).mode = .run ∧ (inputNow (withStop (standingAt 0x200))).stopReq = true) ∧
    (haltedBy (standingAt 0x200) .stackUnderflow 0).mode = .halt := by decide

theorem witness_HaltHasNoStep : (haltedBy (standingAt 0x200) .stackUnderflow 0).mode = .halt := rfl

theorem witness_EveryWordExecutes : (State.reset.mode = .run ∧ PcInRange State.reset) ∧
    ((standingAt 0xFFFE).mode = .run ∧ PcInRange (standingAt 0xFFFE)) := by
  unfold PcInRange; decide

/-- The reset state meets the invariant, whatever inputs are given, with a word placed at 0x0200. -/
theorem inv_placed (c : CycleInput) (w : Nat) (h : (placed w).mem.wf = true) :
    Inv { placed w with inputs := [c] } :=
  { memory := h
    pc := (by decide : 0x200 ≤ (0x0200 : Word).toNat ∧ (0x0200 : Word).toNat ≤ 0xFFFE)
    halt := (⟨rfl, rfl, rfl⟩ : Cause.none = .none ∧ (0 : Word) = 0 ∧ (0 : Word) = 0)
    waiting := fun h => absurd h Bool.false_ne_true
    ill := rfl }

theorem witness_HaltOnlyByFaultOrStopRequest :
    (∃ s t, Inv s ∧ step s = .next t ∧ t.mode = .halt ∧ t.cause = .stackUnderflow) ∧
    (∃ s t, Inv s ∧ step s = .next t ∧ t.mode = .halt ∧ (inputNow s).stopReq = true) ∧
    (∃ s t, Inv s ∧ step s = .next t ∧ t.mode = .run) :=
  ⟨⟨_, _, inv_placed quietInput 0x00EE (by decide), rfl, rfl, rfl⟩,
    ⟨_, _, inv_placed { quietInput with stopReq := true } 0x1200 (by decide), rfl, rfl, rfl⟩,
    ⟨_, _, inv_placed quietInput 0x1200 (by decide), rfl, rfl⟩⟩

/-- A fault of an instruction, and the report that stands before a `PcBounds`. -/
theorem witness_FatalFaultsArePrecise :
    (∃ t, step (placed 0x00EE) = .next t ∧ t.mode = .halt ∧ t.cause ≠ .stopRequest) ∧
    (∃ t, step (standingAt 0xFFFE) = .next t ∧ t.mode = .halt ∧ t.cause ≠ .stopRequest) :=
  ⟨⟨_, rfl, rfl, by decide⟩, ⟨_, rfl, rfl, by decide⟩⟩

theorem witness_IllFlagIsSticky : (∃ t, step (placed 0x8128) = .next t ∧ t.ill = true) ∧
    (∃ t, step (placed 0x6005) = .next t ∧ t.ill = false) := ⟨⟨_, rfl, rfl⟩, ⟨_, rfl, rfl⟩⟩

theorem witness_EveryStepKeepsTheInvariant : (∃ s t, Inv s ∧ step s = .next t ∧ t.wait = true) ∧
    (∃ s t, Inv s ∧ step s = .next t ∧ t.mode = .halt) :=
  ⟨⟨_, _, inv_placed quietInput 0xF30A (by decide), rfl, rfl⟩,
    ⟨_, _, inv_placed quietInput 0x00EE (by decide), rfl, rfl⟩⟩

/-- A cycle that commits, one that the stop request halts, and one that faults after an earlier `present`. -/
theorem witness_PresentIsStrobedUnlessTheCycleFaults :
    (∃ t, step (placed 0x6005) = .next t ∧ t.mode = .run) ∧
    (∃ t, step (withStop (placed 0x1200)) = .next t ∧ t.mode = .halt ∧ t.cause = .stopRequest) ∧
    (∃ t, step { placed 0x00EE with events := [.present] } = .next t ∧ t.mode = .halt ∧
      t.cause = .stackUnderflow) :=
  ⟨⟨_, rfl, rfl⟩, ⟨_, rfl, rfl, rfl⟩, ⟨_, rfl, rfl, rfl⟩⟩

theorem witness_ResetValues : 15 < 16 ∧ 80 ≤ 80 := by decide

theorem witness_ImageIsLoadedVerbatim :
    65024 < (List.replicate 65025 (0 : Byte)).length ∧ (List.replicate 65024 (0 : Byte)).length ≤ 65024 ∧
    ([] : List Byte).length ≤ 65024 ∧ 0x200 + [(0x12 : Byte), 0x00].length ≤ 0x202 := by
  simp only [List.length_replicate, List.length_nil, List.length_cons]; decide

end Sys2Proof.Tests
end

section
/-! PROOFS. How a core cycle ends, and the `present` strobe (R8, R120 phase P, R246, R252). -/

namespace Sys2Proof.Machine

/-! ### What the phases before the end of a core cycle leave -/

/-- Between the state `s` and the state `u` no strobe was added but at most the report of the word at `PC` (R245). -/
def ReportsOnly (s u : State) : Prop :=
  u.events = s.events ∨ u.events = .illegalOp s.pc (fetch s) :: s.events

theorem ReportsOnly.count_present {s u : State} (h : ReportsOnly s u) :
    u.events.count .present = s.events.count .present := by
  rcases h with h | h
  · rw [h]
  · rw [h, List.count_cons_of_ne (by simp)]

/-- What the phases up to the commit leave of the state `s`: a core that runs on, or one that a fatal fault has
just halted. -/
inductive CommitEnds (s : State) : State → Prop where
  | committed (u : State) (mode : u.mode = .run) (events : ReportsOnly s u) : CommitEnds s u
  | faulted (b : State) (c : Cause) (info : Nat) (cause : c ≠ .stopRequest) (events : ReportsOnly s b) :
      CommitEnds s (raiseFault b c info)

/-- No instruction's own fault is recorded as a stop request (R241). -/
theorem OwnFault.cause_ne_stopRequest {s : State} {i : Instr} {c : Cause} {info : Nat} (h : OwnFault s i c info) :
    c ≠ .stopRequest := by
  cases h <;> simp

/-- A commit on a running core leaves it running, or halts it by `PcBounds` (R122). -/
theorem commitEnds_commit {s before after : State} (hm : after.mode = .run) (hb : ReportsOnly s before)
    (ha : ReportsOnly s after) (next : Nat) (wait : Bool) : CommitEnds s (commit before after next wait) := by
  obtain ⟨-, e⟩ | ⟨-, e⟩ := commit_cases before after next wait
  · rw [e]
    exact .committed _ hm ha
  · rw [e]
    exact .faulted before .pcBounds next (by simp) hb

/-- Every instruction of a running core ends in a commit or in a fatal fault, and strobes nothing. -/
theorem commitEnds_exec {s b u : State} {i : Instr} (hm : b.mode = .run) (hb : ReportsOnly s b)
    (h : exec i b = .next u) : CommitEnds s u := by
  obtain ⟨c, info, own, e⟩ | ⟨w, next, wait, pending, e⟩ := exec_cases i b
  · cases e.symm.trans h
    exact .faulted b c info own.cause_ne_stopRequest hb
  · cases e.symm.trans h
    have hw : ReportsOnly s w := by simpa only [ReportsOnly, pending.events] using hb
    exact commitEnds_commit (pending.mode.trans hm) hb hw next wait

/-- Every core cycle that answers a next state ends, after a commit or a fatal fault, by `endCycle` (R120). -/
theorem step_commitEnds {s t : State} (h : step s = .next t) : ∃ u, CommitEnds s u ∧ t = endCycle u := by
  obtain ⟨hm, -, ⟨i, u, -, he, rfl⟩ | ⟨_, -, rfl⟩⟩ := step_next h
  · exact ⟨u, commitEnds_exec (b := tickService s) hm (.inl rfl) he, rfl⟩
  · have hr : ReportsOnly s (reportIllegal (tickService s) (fetch s)) := .inr rfl
    have hrun : (reportIllegal (tickService s) (fetch s)).mode = .run := hm
    exact ⟨_, commitEnds_commit hrun hr hr _ _, rfl⟩

/-! ### What the end of the core cycle adds -/

theorem events_endCycle_run {u : State} (h : u.mode = .run) : (endCycle u).events = .present :: u.events := by
  rw [endCycle_run h, nextInput_events, presentAndPoll_events]

theorem events_endCycle_halt {u : State} (h : u.mode = .halt) : (endCycle u).events = u.events := by
  rw [endCycle_halt h, nextInput_events]

/-- After a commit the core runs on, or the stop request halted it (R252). -/
theorem mode_or_cause_endCycle_run {u : State} (h : u.mode = .run) :
    (endCycle u).mode = .run ∨ (endCycle u).cause = .stopRequest := by
  rw [endCycle_run h, nextInput_mode, nextInput_cause]
  unfold presentAndPoll
  cases (inputNow u).stopReq
  · exact .inl h
  · exact .inr rfl

/-- Settles O58: after a commit the end of the cycle adds the strobe whatever the stop poll does, and after a
fatal fault it adds none. -/
theorem presentIsStrobedUnlessTheCycleFaults : Obligations.PresentIsStrobedUnlessTheCycleFaults := by
  intro s t h
  obtain ⟨u, ends, rfl⟩ := step_commitEnds h
  cases ends with
  | committed u mode events =>
    have strobed := presentStrobed_of_commit mode
    refine ⟨iff_of_true strobed (mode_or_cause_endCycle_run mode), ?_⟩
    rw [strobed, events_endCycle_run mode, List.count_cons_self, events.count_present, if_pos rfl]
  | faulted b c info cause events =>
    have silent := presentStrobed_of_fault b cause info
    have halts : (raiseFault b c info).mode = .halt := rfl
    have counted : (raiseFault b c info).events.count .present = s.events.count .present := events.count_present
    constructor
    · rw [silent, endCycle_halt halts, nextInput_mode, nextInput_cause, halts]
      exact iff_of_false Bool.false_ne_true (not_or_intro Mode.noConfusion cause)
    · rw [silent, events_endCycle_halt halts, counted, if_neg Bool.false_ne_true, Nat.add_zero]

end Sys2Proof.Machine
end

section
/-! PROOFS. The state of the core (10_state.md): the invariant that every core cycle keeps, how a core halts, the
sticky `ILL`, and what reset puts in place. -/

namespace Sys2Proof.Machine

/-! ### The halt registers -/

theorem haltRecord_run {s : State} (run : s.mode = .run) :
    HaltRecord s ↔ s.cause = .none ∧ s.epc = 0 ∧ s.einfo = 0 := by
  simp only [HaltRecord, run]

/-- A halted core has a recorded cause (R36). -/
theorem HaltRecord.cause_ne_none {s : State} (h : HaltRecord s) (halt : s.mode = .halt) : s.cause ≠ .none := by
  intro none
  simp only [HaltRecord, halt, none] at h
  exact h.2

/-- The datum of an instruction's own fault fits its cause (R241). -/
theorem OwnFault.haltRecord {s : State} {i : Instr} {c : Cause} {info : Nat} (own : OwnFault s i c info) :
    HaltRecord (raiseFault s c info) := by
  cases own with
  | overflow nnn full => exact ⟨rfl, rfl, full⟩
  | underflow empty => exact ⟨rfl, rfl, empty⟩
  | memory i last lo hi =>
    have datum : (BitVec.ofNat 16 info).toNat < 15 := by rw [BitVec.toNat_ofNat]; omega
    exact ⟨rfl, datum⟩

/-- A `next_pc` past 0xFFFF leaves a datum below 4, since no instruction goes more than 4 beyond `PC` (R122, R241). -/
theorem haltRecord_pcBounds (s : State) {next : Nat} (illegal : pcLegal next = false) (le : next ≤ 65535 + 4) :
    HaltRecord (raiseFault s .pcBounds next) := by
  have range : ¬(0x200 ≤ next ∧ next ≤ 0xFFFE) := by rw [← pcLegal_iff, illegal]; exact Bool.false_ne_true
  have datum : (BitVec.ofNat 16 next).toNat < 0x200 ∨ (BitVec.ofNat 16 next).toNat = 0xFFFF := by
    rw [BitVec.toNat_ofNat]; omega
  exact ⟨rfl, datum⟩

theorem PendingWrites.haltRecord {i : Instr} {s w : State} {next : Nat} {wait : Bool}
    (pending : PendingWrites i s w next wait) (run : s.mode = .run) (h : HaltRecord s) : HaltRecord w := by
  rw [haltRecord_run run] at h
  rwa [haltRecord_run (pending.mode.trans run), pending.cause, pending.epc, pending.einfo]

theorem PendingWrites.illSticky {i : Instr} {s w : State} {next : Nat} {wait : Bool}
    (pending : PendingWrites i s w next wait) (h : IllSticky s) : IllSticky w := by
  rwa [IllSticky, pending.ill, pending.events]

/-! ### The invariant through the phases of a core cycle -/

theorem inv_tickService {s : State} (hs : Inv s) : Inv (tickService s) :=
  ⟨hs.memory, hs.pc, hs.halt, hs.waiting, hs.ill⟩

/-- The report sets `ILL` and adds to the history in one go (R245). -/
theorem inv_reportIllegal {s : State} (hs : Inv s) (op : Word) : Inv (reportIllegal s op) :=
  ⟨hs.memory, hs.pc, hs.halt, hs.waiting, rfl⟩

/-- A fatal fault writes the halt registers alone (R246). -/
theorem inv_raiseFault {s : State} (hs : Inv s) {c : Cause} {info : Nat} (halt : HaltRecord (raiseFault s c info)) :
    Inv (raiseFault s c info) :=
  ⟨hs.memory, hs.pc, halt, hs.waiting, hs.ill⟩

/-- What a commit needs to end in the invariant: pending writes that meet it but for `PC` and `WAIT`, a `next_pc` at
most 4 beyond 0xFFFF, and `wait'` only where nothing else is written at an `Fx0A` (R122, R224). -/
theorem inv_commit {before after : State} {next : Nat} {wait : Bool} (hb : Inv before) (run : after.mode = .run)
    (memory : after.mem.wf = true) (halt : HaltRecord after) (ill : IllSticky after) (le : next ≤ 65535 + 4)
    (waits : wait = true →
      after = before ∧ next = before.pc.toNat ∧ ∃ x, decode (fetch before) = .ok (.ldKey x)) :
    Inv (commit before after next wait) := by
  obtain ⟨legal, e⟩ | ⟨illegal, e⟩ := commit_cases before after next wait
  · rw [e]
    rw [pcLegal_iff] at legal
    refine ⟨memory, ?_, (haltRecord_run (by exact run)).2 ((haltRecord_run run).1 halt), ?_, ill⟩
    · rw [PcInRange, BitVec.toNat_ofNat]
      omega
    · intro hw
      obtain ⟨rfl, rfl, key⟩ := waits hw
      rwa [BitVec.ofNat_toNat, BitVec.setWidth_eq]
  · rw [e]
    exact inv_raiseFault hb (haltRecord_pcBounds before illegal le)

/-- Phases X and C of the instruction that was fetched. -/
theorem inv_exec {i : Instr} {s u : State} (hs : Inv s) (run : s.mode = .run) (decoded : decode (fetch s) = .ok i)
    (h : exec i s = .next u) : Inv u := by
  obtain ⟨c, info, own, e⟩ | ⟨w, next, wait, pending, e⟩ := exec_cases i s
  · cases e.symm.trans h
    exact inv_raiseFault hs own.haltRecord
  · cases e.symm.trans h
    refine inv_commit hs (pending.mode.trans run) (pending.memory hs.memory) (pending.haltRecord run hs.halt)
      (pending.illSticky hs.ill) pending.next_le fun hw => ?_
    obtain ⟨same, stays, x, rfl⟩ := pending.waits hw
    exact ⟨same, stays, x, decoded⟩

/-- Phases X and C of an unrecognised word (R245). -/
theorem inv_complete_report {s : State} (hs : Inv s) (run : s.mode = .run) (op : Word) :
    Inv (complete (reportIllegal s op) (reportIllegal s op)) := by
  have hr := inv_reportIllegal hs op
  have le : nextPc (reportIllegal s op) ≤ 65535 + 4 := by
    have := (reportIllegal s op).pc.isLt
    unfold nextPc
    omega
  exact inv_commit hr run hr.memory hr.halt hr.ill le fun hw => absurd hw Bool.false_ne_true

/-- A stop request records cause 1 with the address of the next instruction (R252). -/
theorem haltRecord_presentAndPoll {s : State} (run : s.mode = .run) (h : HaltRecord s) :
    HaltRecord (presentAndPoll s) := by
  cases stop : (inputNow s).stopReq with
  | false =>
    rw [haltRecord_run run] at h
    simpa [HaltRecord, presentAndPoll, stop, run] using h
  | true => simp [HaltRecord, presentAndPoll, stop]

theorem inv_presentAndPoll {s : State} (hs : Inv s) (run : s.mode = .run) : Inv (presentAndPoll s) :=
  ⟨hs.memory, hs.pc, haltRecord_presentAndPoll run hs.halt, hs.waiting, hs.ill⟩

theorem inv_nextInput {s : State} (hs : Inv s) : Inv (nextInput s) :=
  ⟨hs.memory, hs.pc, hs.halt, hs.waiting, hs.ill⟩

theorem inv_endCycle {s : State} (hs : Inv s) : Inv (endCycle s) := by
  cases mode : s.mode with
  | run =>
    rw [endCycle_run mode]
    exact inv_nextInput (inv_presentAndPoll hs mode)
  | halt =>
    rw [endCycle_halt mode]
    exact inv_nextInput hs

/-- Settles O53: every phase of the core cycle keeps the invariant. -/
theorem everyStepKeepsTheInvariant : Obligations.EveryStepKeepsTheInvariant := by
  intro s t hs h
  have ht := inv_tickService hs
  obtain ⟨run, -, ⟨i, u, decoded, he, rfl⟩ | ⟨_, -, rfl⟩⟩ := step_next h
  · exact inv_endCycle (inv_exec ht run decoded he)
  · exact inv_endCycle (inv_complete_report ht run (fetch s))

/-! ### What an instruction cannot reach -/

/-- Everything an instruction's next state can be: the old state halted by a fatal fault, or its pending writes. -/
theorem exec_next {i : Instr} {s t : State} (h : exec i s = .next t) :
    (∃ c info, t = raiseFault s c info) ∨
      ∃ w next wait, PendingWrites i s w next wait ∧ t = { w with pc := BitVec.ofNat 16 next, wait := wait } := by
  obtain ⟨c, info, -, e⟩ | ⟨w, next, wait, pending, e⟩ := exec_cases i s
  · cases e.symm.trans h
    exact .inl ⟨c, info, rfl⟩
  · cases e.symm.trans h
    obtain ⟨-, e⟩ | ⟨-, e⟩ := commit_cases s w next wait
    · exact .inr ⟨w, next, wait, pending, e⟩
    · exact .inl ⟨.pcBounds, next, e⟩

/-- Settles O43: pending writes hold none of the status registers, and a fatal fault halts the core. -/
theorem statusRegistersAreOutOfReach : Obligations.StatusRegistersAreOutOfReach := by
  intro i s t _ h
  obtain ⟨c, info, rfl⟩ | ⟨w, next, wait, pending, rfl⟩ := exec_next h
  · exact ⟨rfl, rfl, rfl, fun run => Mode.noConfusion run⟩
  · exact ⟨pending.tickPend, pending.ill, pending.events, fun _ => ⟨pending.cause, pending.epc, pending.einfo⟩⟩

/-- An instruction leaves the inputs of its core cycle to phase Q. -/
theorem inputNow_exec {i : Instr} {s t : State} (h : exec i s = .next t) : inputNow t = inputNow s := by
  obtain ⟨c, info, rfl⟩ | ⟨w, next, wait, pending, rfl⟩ := exec_next h
  · rfl
  · exact inputNow_congr pending.inputs pending.cycle

/-! ### `ILL` -/

/-- A commit without pending writes, as after the report of an unrecognised word, leaves `ILL` alone. -/
theorem ill_complete_self (s : State) : (complete s s).ill = s.ill := by
  obtain ⟨-, e⟩ | ⟨-, e⟩ := commit_cases s s (nextPc s) false
  · rw [complete, e]
  · rw [complete, e, raiseFault_ill]

@[simp] theorem endCycle_ill (s : State) : (endCycle s).ill = s.ill := by
  cases mode : s.mode with
  | run => rw [endCycle_run mode, nextInput_ill, presentAndPoll_ill]
  | halt => rw [endCycle_halt mode, nextInput_ill]

/-- Settles O52: the report sets `ILL`, and no instruction and no other phase writes it. -/
theorem illFlagIsSticky : Obligations.IllFlagIsSticky := by
  intro s t h
  obtain ⟨run, -, ⟨i, u, decoded, he, rfl⟩ | ⟨e, unrecognised, rfl⟩⟩ := step_next h
  · have kept : u.ill = s.ill := (statusRegistersAreOutOfReach i (tickService s) u run he).2.1
    rw [endCycle_ill, kept, decoded]
    simp
  · rw [endCycle_ill, ill_complete_self, reportIllegal_ill]
    exact iff_of_true rfl (.inr ⟨e, unrecognised⟩)

/-! ### How a core halts -/

theorem inputNow_complete_self (s : State) : inputNow (complete s s) = inputNow s := by
  obtain ⟨-, e⟩ | ⟨-, e⟩ := commit_cases s s (nextPc s) false
  · rw [complete, e]; rfl
  · rw [complete, e]; rfl

/-- The stop request that ends a core cycle is the one of that cycle's inputs (R252). -/
theorem step_pollsItsInput {s t : State} (h : step s = .next t) :
    ∃ u, CommitEnds s u ∧ inputNow u = inputNow s ∧ t = endCycle u := by
  obtain ⟨run, -, ⟨i, u, -, he, rfl⟩ | ⟨_, -, rfl⟩⟩ := step_next h
  · have input : inputNow u = inputNow s := (inputNow_exec he).trans (inputNow_tickService s)
    exact ⟨u, commitEnds_exec (b := tickService s) run (.inl rfl) he, input, rfl⟩
  · have reports : ReportsOnly s (reportIllegal (tickService s) (fetch s)) := .inr rfl
    have running : (reportIllegal (tickService s) (fetch s)).mode = .run := run
    exact ⟨_, commitEnds_commit running reports reports _ _, inputNow_complete_self _, rfl⟩

/-- After a commit the core halts exactly on a stop request (R120 phase Q). -/
theorem mode_endCycle_run {u : State} (run : u.mode = .run) :
    (endCycle u).mode = if (inputNow u).stopReq then .halt else .run := by
  rw [endCycle_run run, nextInput_mode, presentAndPoll, run]

/-- A cycle that ends with the cause of a stop request sampled one: no fatal fault records that cause. -/
theorem CommitEnds.stopReq_of_halt {s u : State} (ends : CommitEnds s u) (halt : (endCycle u).mode = .halt)
    (stopped : (endCycle u).cause = .stopRequest) : (inputNow u).stopReq = true := by
  cases ends with
  | committed u run =>
    rw [mode_endCycle_run run] at halt
    by_contra quiet
    rw [if_neg quiet] at halt
    cases halt
  | faulted b c info cause =>
    rw [endCycle_halt rfl] at stopped
    exact absurd stopped cause

/-- A core that runs on was not asked to stop. -/
theorem CommitEnds.stopReq_of_run {s u : State} (ends : CommitEnds s u) (goesOn : (endCycle u).mode = .run) :
    (inputNow u).stopReq = false := by
  cases ends with
  | committed u run =>
    rw [mode_endCycle_run run] at goesOn
    by_contra asked
    rw [Bool.not_eq_false] at asked
    rw [if_pos asked] at goesOn
    cases goesOn
  | faulted b c info =>
    rw [endCycle_halt rfl] at goesOn
    cases goesOn

/-- Settles O50: by the invariant a halted core has a cause, and only phase Q records the stop request. -/
theorem haltOnlyByFaultOrStopRequest : Obligations.HaltOnlyByFaultOrStopRequest := by
  intro s t hs h
  have inv : Inv t := everyStepKeepsTheInvariant s t hs h
  obtain ⟨u, ends, input, rfl⟩ := step_pollsItsInput h
  rw [← input]
  refine ⟨fun halt => ?_, ends.stopReq_of_run⟩
  have stop := ends.stopReq_of_halt halt
  have named := inv.halt.cause_ne_none halt
  cases cause : (endCycle u).cause with
  | none => exact absurd cause named
  | stopRequest => exact .inr (.inr (.inr (.inr ⟨rfl, stop cause⟩)))
  | stackOverflow => exact .inl rfl
  | stackUnderflow => exact .inr (.inl rfl)
  | memBounds => exact .inr (.inr (.inl rfl))
  | pcBounds => exact .inr (.inr (.inr (.inl rfl)))

/-! ### Reset -/

/-- Settles O54: reset lists no byte of memory and starts with `WAIT` and `ILL` clear. -/
theorem resetMeetsTheInvariant : Obligations.ResetMeetsTheInvariant where
  memory := rfl
  pc := ⟨by decide, by decide⟩
  halt := ⟨rfl, rfl, rfl⟩
  waiting := fun waits => absurd waits Bool.false_ne_true
  ill := rfl

theorem pixelAt_blankScreen (r c : Nat) : pixelAt blankScreen r c = false := by
  unfold pixelAt blankScreen
  split
  · simp
  · rfl

/-- Past the font's 80 bytes memory reads 0x00 after reset (R68, R69). -/
theorem resetByte_past_font {a : Nat} (h : 80 ≤ a) : resetByte a = 0 := by
  have past : font.length ≤ a - fontBase := h
  unfold resetByte
  rw [List.getD_eq_default _ _ past, ite_self]

/-- Settles O55: unlisted memory reads as the font, and past its 80 bytes as 0x00. -/
theorem resetValues : Obligations.ResetValues := by
  have registers : ∀ r : Reg, getV State.reset r = 0 := fun r => by simp [getV, State.reset]
  have stack : ∀ k, (h : k < 16) → State.reset.stk[k] = 0 := fun k h => by simp [State.reset]
  exact ⟨registers, rfl, rfl, rfl, stack, rfl, rfl, rfl, pixelAt_blankScreen, rfl, rfl, rfl, rfl, rfl, rfl,
    by decide, fun _ => resetByte_past_font⟩

end Sys2Proof.Machine
end

section
/-! PROOFS. Every instruction as the rule of `next_pc` (R27, R131) and its destinations (R22, R24, R42) say: a fault
of its own, or a commit at that `next_pc` of writes to those registers. -/

open Sys2Proof.Claims

namespace Sys2Proof.Machine

/-! ### The registers that pending writes leave alone -/

/-- The pending writes `w` of instruction `i` change no general register but the destinations of `i`. -/
def KeepsOthers (i : Instr) (s w : State) : Prop := ∀ r, mayWrite i r = false → getV w r = getV s r

theorem keepsOthers_of_v {i : Instr} {s w : State} (same : w.v = s.v) : KeepsOthers i s w :=
  fun r _ => getV_congr same r

theorem KeepsOthers.setV {i : Instr} {s w : State} (keeps : KeepsOthers i s w) {x : Reg}
    (dest : mayWrite i x = true) (b : Byte) : KeepsOthers i s (setV w x b) := by
  intro r hr
  have other : r ≠ x := by
    rintro rfl
    cases dest.symm.trans hr
  rw [getV_setV, if_neg other, keeps r hr]

theorem keepsOthers_setV {i : Instr} {x : Reg} (dest : mayWrite i x = true) (s : State) (b : Byte) :
    KeepsOthers i s (setV s x b) :=
  (keepsOthers_of_v rfl).setV dest b

/-- Bytes loaded into `V[k]`, `V[k+1]`, ... leave the registers after the last of them alone (R185). -/
theorem loadRegs_getElem_past {v : Vector Byte 16} {k : Nat} {bs : List Byte} {j : Nat} (hj : j < 16)
    (past : k + bs.length ≤ j) : (loadRegs v k bs)[j] = v[j] := by
  induction bs generalizing v k with
  | nil => rfl
  | cons b bs ih =>
    rw [List.length_cons] at past
    rw [loadRegs, ih (by omega), Vector.getElem_setIfInBounds_ne _ (by omega)]

theorem keepsOthers_loadRegs {x : Reg} {s : State} {bs : List Byte} (count : bs.length = regCount x) :
    KeepsOthers (.ldm x) s { s with v := loadRegs s.v 0 bs } := by
  intro r hr
  have above : ¬ r ≤ x := of_decide_eq_false hr
  exact loadRegs_getElem_past r.isLt (by rw [count, regCount, Nat.zero_add]; exact Nat.lt_of_not_le above)

/-! ### Every instruction's outcome -/

/-- The outcomes the rules allow an instruction: its own fault where R241 names one, or the commit of its pending
writes at the `next_pc` of R27. -/
inductive AsRuled (i : Instr) (s : State) : Host.Outcome State Fault Refusal → Prop where
  | faults (c : Cause) (info : Nat) (own : ownFault i s = true) : AsRuled i s (.next (raiseFault s c info))
  | commits (w : State) (wait : Bool) (mode : w.mode = s.mode) (keeps : KeepsOthers i s w) :
      AsRuled i s (.next (commit s w (ruleNext i s) wait))

theorem asRuled_complete {i : Instr} {s w : State} (next : ruleNext i s = nextPc s) (mode : w.mode = s.mode)
    (keeps : KeepsOthers i s w) : AsRuled i s (.next (complete s w)) := by
  unfold complete
  rw [← next]
  exact .commits w false mode keeps

theorem asRuled_jump {i : Instr} {s : State} {target : Nat} {wait : Bool} (next : ruleNext i s = target) :
    AsRuled i s (.next (commit s s target wait)) := by
  rw [← next]
  exact .commits s wait rfl (keepsOthers_of_v rfl)

theorem asRuled_writeReg {i : Instr} {s : State} {x : Reg} {b : Byte} (next : ruleNext i s = nextPc s)
    (dest : mayWrite i x = true) : AsRuled i s (writeReg x b s) :=
  asRuled_complete next rfl (keepsOthers_setV dest s b)

theorem asRuled_writeRegFlag {i : Instr} {s : State} {x : Reg} {b : Byte} {c : Bool} (next : ruleNext i s = nextPc s)
    (dest : mayWrite i x = true) (flag : mayWrite i vf = true) :
    AsRuled i s (writeRegFlag x b c s) :=
  asRuled_complete next rfl ((keepsOthers_setV dest s b).setV flag _)

theorem asRuled_writeIndex {i : Instr} {s : State} {a : Word} (next : ruleNext i s = nextPc s) :
    AsRuled i s (writeIndex a s) :=
  asRuled_complete next rfl (keepsOthers_of_v rfl)

theorem asRuled_storeAtIndex {i : Instr} {s : State} {bs : List Byte} (next : ruleNext i s = nextPc s)
    (own : 65536 < s.i.toNat + bs.length → ownFault i s = true) : AsRuled i s (storeAtIndex bs s) := by
  unfold storeAtIndex
  obtain ⟨e, -⟩ | ⟨e, -, past⟩ := writeSpan_cases s.mem (effectiveAddress s 0) bs
  · rw [e]
    exact asRuled_complete next rfl (keepsOthers_of_v rfl)
  · rw [e]
    exact .faults _ _ (own past)

/-- An entry of the stack as R123 reads it. -/
theorem stackEntry_eq_getD (s : State) (k : Nat) : stackEntry s k = s.stk.toList.getD k 0 := by
  unfold stackEntry
  split
  · next h => rw [List.getD_eq_getElem _ _ (by simpa using h), Vector.getElem_toList]
  · next h => rw [List.getD_eq_default _ _ (by simpa using h)]

theorem asRuled_ret (s : State) : AsRuled .ret s (execRet s) := by
  unfold execRet
  split
  · next empty => exact .faults _ _ (decide_eq_true empty)
  · rw [stackEntry_eq_getD]
    exact .commits (pop s) false rfl (keepsOthers_of_v rfl)

theorem asRuled_call (nnn : BitVec 12) (s : State) : AsRuled (.call nnn) s (execCall nnn s) := by
  unfold execCall
  split
  · next full => exact .faults _ _ (decide_eq_true full)
  · exact .commits _ false (push_mode s _) (keepsOthers_of_v (push_v s _))

theorem asRuled_drw (x y : Reg) (n : BitVec 4) (s : State) : AsRuled (.drw x y n) s (execDrw x y n s) := by
  unfold execDrw
  obtain ⟨e, -⟩ | ⟨e, rows, past⟩ := readSpan_cases s.mem (effectiveAddress s 0) n.toNat
  · rw [e]
    exact asRuled_complete rfl rfl ((keepsOthers_of_v rfl).setV rfl _)
  · rw [e]
    rw [effectiveAddress_zero] at past
    have own : ownFault (.drw x y n) s = true := by
      rw [ownFault, Bool.and_eq_true, decide_eq_true_eq, decide_eq_true_eq]
      omega
    exact .faults _ _ own

theorem asRuled_ldKey (x : Reg) (s : State) : AsRuled (.ldKey x) s (execLdKey x s) := by
  unfold execLdKey
  cases found : lowestKey (keysNow s) with
  | none =>
    have quiet : (inputNow s).keys = 0 := lowestKey_none.1 found
    exact asRuled_jump (if_pos quiet)
  | some k =>
    have pressed : (inputNow s).keys ≠ 0 := fun quiet => by
      cases found.symm.trans (lowestKey_none.2 quiet)
    have dest : mayWrite (.ldKey x) x = true := decide_eq_true rfl
    exact asRuled_complete (if_neg pressed) rfl (keepsOthers_setV dest s _)

theorem asRuled_ldm (x : Reg) (s : State) : AsRuled (.ldm x) s (execLdm x s) := by
  unfold execLdm
  obtain ⟨e, -⟩ | ⟨e, -, past⟩ := readSpan_cases s.mem (effectiveAddress s 0) (regCount x)
  · rw [e]
    exact asRuled_complete rfl rfl (keepsOthers_loadRegs (bytesFrom_length ..))
  · rw [e]
    rw [effectiveAddress_zero, regCount] at past
    exact .faults _ _ (decide_eq_true (by omega))

/-- Every instruction does what its rules allow: the destinations are its own, `next_pc` is that of R27, and it
faults only where R241 says. -/
theorem exec_asRuled (i : Instr) (s : State) : AsRuled i s (exec i s) := by
  have self : ∀ x : Reg, decide (x = x) = true := fun _ => decide_eq_true rfl
  have selfOrFlag : ∀ x : Reg, (decide (x = x) || decide (x = 15)) = true := fun x => by rw [self, Bool.true_or]
  have flag : ∀ x : Reg, (decide (vf = x) || decide (vf = 15)) = true := fun x => Bool.or_true _
  cases i with
  | cls => exact asRuled_complete rfl rfl (keepsOthers_of_v rfl)
  | ret => exact asRuled_ret s
  | jp nnn => exact asRuled_jump rfl
  | call nnn => exact asRuled_call nnn s
  | seI x nn => exact asRuled_jump rfl
  | sneI x nn => exact asRuled_jump rfl
  | seR x y => exact asRuled_jump rfl
  | ldI x nn => exact asRuled_writeReg rfl (self x)
  | addI x nn => exact asRuled_writeReg rfl (self x)
  | ldR x y => exact asRuled_writeReg rfl (self x)
  | orR x y => exact asRuled_writeReg rfl (self x)
  | andR x y => exact asRuled_writeReg rfl (self x)
  | xorR x y => exact asRuled_writeReg rfl (self x)
  | addR x y => exact asRuled_writeRegFlag rfl (selfOrFlag x) (flag x)
  | sub x y => exact asRuled_writeRegFlag rfl (selfOrFlag x) (flag x)
  | shr x y => exact asRuled_writeRegFlag rfl (selfOrFlag x) (flag x)
  | subn x y => exact asRuled_writeRegFlag rfl (selfOrFlag x) (flag x)
  | shl x y => exact asRuled_writeRegFlag rfl (selfOrFlag x) (flag x)
  | sneR x y => exact asRuled_jump rfl
  | ldIdx nnn => exact asRuled_writeIndex rfl
  | jpV0 nnn => exact asRuled_jump rfl
  | rnd x nn => exact asRuled_writeReg rfl (self x)
  | drw x y n => exact asRuled_drw x y n s
  | skp x => exact asRuled_jump rfl
  | sknp x => exact asRuled_jump rfl
  | ldRdt x => exact asRuled_writeReg rfl (self x)
  | ldKey x => exact asRuled_ldKey x s
  | ldWdt x => exact asRuled_complete rfl rfl (keepsOthers_of_v rfl)
  | ldWst x => exact asRuled_complete rfl rfl (keepsOthers_of_v rfl)
  | addIdx x => exact asRuled_writeIndex rfl
  | ldFont x => exact asRuled_writeIndex rfl
  | bcd x => exact asRuled_storeAtIndex rfl fun past => decide_eq_true (Nat.le_of_lt_succ past)
  | stm x =>
    refine asRuled_storeAtIndex rfl fun past => ?_
    rw [regBytes_length] at past
    exact decide_eq_true (Nat.le_of_lt_succ past)
  | ldm x => exact asRuled_ldm x s

/-- An instruction with no fault of its own reaches the commit at its `next_pc` (R131). -/
theorem exec_commits_of_no_ownFault {i : Instr} {s : State} (noFault : ownFault i s = false) :
    ∃ w wait, w.mode = s.mode ∧ exec i s = .next (commit s w (ruleNext i s) wait) := by
  have ruled := exec_asRuled i s
  generalize exec i s = o at ruled ⊢
  cases ruled with
  | faults c info own => cases noFault.symm.trans own
  | commits w wait mode => exact ⟨w, wait, mode, rfl⟩

/-- Settles O20: with no fault of its own an instruction commits at its `next_pc`, and in range the commit stands. -/
theorem everyInstructionAdvancesPcAsRuled : Obligations.EveryInstructionAdvancesPcAsRuled := by
  intro i s noFault lo hi
  obtain ⟨w, wait, mode, e⟩ := exec_commits_of_no_ownFault noFault
  rw [e, commit_legal ((pcLegal_iff _).2 ⟨lo, hi⟩)]
  exact ⟨_, rfl, (BitVec.toNat_ofNat _ _).trans (Nat.mod_eq_of_lt (by omega)), mode⟩

/-- Settles O40: a fatal fault writes no register, and a commit those of the pending writes. -/
theorem registersOutsideDestinationsKeep : Obligations.RegistersOutsideDestinationsKeep := by
  intro i s t r h other
  have ruled := exec_asRuled i s
  rw [h] at ruled
  cases ruled with
  | faults c info => rfl
  | commits w wait mode keeps =>
    obtain ⟨-, e⟩ | ⟨-, e⟩ := commit_cases s w (ruleNext i s) wait
    · rw [e]
      exact keeps r other
    · rw [e]
      rfl

end Sys2Proof.Machine
end

section
/-! PROOFS. Writes to memory: the bytes an instruction stores and no others change (R67, R71, R183, R184), and a
store is what the next fetch reads (R74, R61). -/

namespace Sys2Proof.Machine

/-! ### The bytes an instruction stores -/

/-- The bytes an instruction stores from `I` upward: the digits of `Fx33`, the registers of `Fx55`, none for any
other (R67, R183, R184). -/
def storedBytes : Instr → State → List Byte
  | .bcd x, s => decimalDigits (getV s x)
  | .stm x, s => regBytes s x
  | _, _ => []

theorem storedBytes_bcd_length (x : Reg) (s : State) : (storedBytes (.bcd x) s).length = 3 := rfl

theorem storedBytes_stm_length (x : Reg) (s : State) : (storedBytes (.stm x) s).length = regCount x :=
  regBytes_length s x

/-- Only `Fx33` and `Fx55` store anything (R67). -/
theorem storedBytes_eq_nil {i : Instr} (notBcd : ∀ x, i ≠ .bcd x) (notStm : ∀ x, i ≠ .stm x) (s : State) :
    storedBytes i s = [] := by
  unfold storedBytes
  split
  · next x => exact absurd rfl (notBcd x)
  · next x => exact absurd rfl (notStm x)
  · rfl

/-! ### Memory after an instruction -/

/-- The outcomes that write at most the bytes `bs` from `I` upward to memory: a fatal fault, which writes none, or
a commit of pending writes that hold them (R65, R122). -/
inductive Stores (bs : List Byte) (s : State) : Host.Outcome State Fault Refusal → Prop where
  | faults (c : Cause) (info : Nat) : Stores bs s (.next (raiseFault s c info))
  | commits (w : State) (next : Nat) (wait : Bool) (mem : w.mem = putBytes s.mem (effectiveAddress s 0) bs) :
      Stores bs s (.next (commit s w next wait))

theorem stores_storeAtIndex (bs : List Byte) (s : State) : Stores bs s (storeAtIndex bs s) := by
  unfold storeAtIndex
  obtain ⟨e, -⟩ | ⟨e, -⟩ := writeSpan_cases s.mem (effectiveAddress s 0) bs
  · rw [e]
    exact .commits _ _ _ rfl
  · rw [e]
    exact .faults _ _

/-- Every instruction writes at most its stored bytes to memory. -/
theorem exec_stores (i : Instr) (s : State) : Stores (storedBytes i s) s (exec i s) := by
  cases i with
  | bcd x => exact stores_storeAtIndex _ s
  | stm x => exact stores_storeAtIndex _ s
  | ret =>
    rw [exec_ret, execRet]
    split
    · exact .faults _ _
    · exact .commits _ _ _ rfl
  | call nnn =>
    rw [exec_call, execCall]
    split
    · exact .faults _ _
    · exact .commits _ _ _ (push_mem s _)
  | drw x y n =>
    rw [exec_drw, execDrw]
    split
    · exact .faults _ _
    · exact .commits _ _ _ rfl
  | ldm x =>
    rw [exec_ldm, execLdm]
    split
    · exact .faults _ _
    · exact .commits _ _ _ rfl
  | ldKey x =>
    rw [exec_ldKey, execLdKey]
    cases lowestKey (keysNow s) with
    | none => exact .commits _ _ _ rfl
    | some k => exact .commits _ _ _ rfl
  | cls | jp | seI | sneI | seR | ldI | addI | ldR | orR | andR | xorR | addR | sub | shr | subn | shl | sneR
  | ldIdx | jpV0 | rnd | skp | sknp | ldRdt | ldWdt | ldWst | addIdx | ldFont => exact .commits _ _ _ rfl

/-- An address outside the bytes an instruction stores reads as before. -/
theorem byteAt_exec_other {i : Instr} {s t : State} (h : exec i s = .next t) {a : Nat}
    (outside : a < effectiveAddress s 0 ∨ effectiveAddress s 0 + (storedBytes i s).length ≤ a) :
    byteAt t.mem a = byteAt s.mem a := by
  have stores := exec_stores i s
  rw [h] at stores
  cases stores with
  | faults c info => rfl
  | commits w next wait mem =>
    obtain ⟨-, e⟩ | ⟨-, e⟩ := commit_cases s w next wait
    · rw [e, mem]
      exact byteAt_putBytes_other outside
    · rw [e, raiseFault_mem]

/-- Settles O41: outside its stored bytes an instruction keeps memory, and only `Fx33` and `Fx55` store any. -/
theorem memoryOutsideStoresKeeps : Obligations.MemoryOutsideStoresKeeps := by
  intro i s t h
  refine ⟨?_, ?_, ?_⟩
  · rintro x rfl a outside
    exact byteAt_exec_other h outside
  · rintro x rfl a outside
    rw [← storedBytes_stm_length x s] at outside
    exact byteAt_exec_other h outside
  · intro notBcd notStm a
    refine byteAt_exec_other h ?_
    rw [storedBytes_eq_nil notBcd notStm, List.length_nil]
    exact Nat.lt_or_ge a _

/-! ### Memory over a core cycle -/

@[simp] theorem endCycle_mem (s : State) : (endCycle s).mem = s.mem := by
  cases mode : s.mode with
  | run => rw [endCycle_run mode, nextInput_mem, presentAndPoll_mem]
  | halt => rw [endCycle_halt mode, nextInput_mem]

/-- A commit without pending writes, as after the report of an unrecognised word, leaves memory alone. -/
theorem mem_complete_self (s : State) : (complete s s).mem = s.mem := by
  obtain ⟨-, e⟩ | ⟨-, e⟩ := commit_cases s s (nextPc s) false
  · rw [complete, e]
  · rw [complete, e, raiseFault_mem]

/-- A byte that reads differently after an instruction is one of those a `Fx33` or `Fx55` stores. -/
theorem stored_of_byteAt_exec_ne {i : Instr} {s t : State} (h : exec i s = .next t) {a : Nat}
    (changed : byteAt t.mem a ≠ byteAt s.mem a) :
    (∃ x, i = .bcd x ∧ s.i.toNat ≤ a ∧ a ≤ s.i.toNat + 2) ∨
      (∃ x, i = .stm x ∧ s.i.toNat ≤ a ∧ a ≤ s.i.toNat + x.val) := by
  obtain ⟨bcd, stm, others⟩ := memoryOutsideStoresKeeps i s t h
  simp only [effectiveAddress_zero] at bcd stm
  by_cases isBcd : ∃ x, i = .bcd x
  · obtain ⟨x, rfl⟩ := isBcd
    have inside := mt (bcd x rfl a) changed
    exact .inl ⟨x, rfl, by omega, by omega⟩
  by_cases isStm : ∃ x, i = .stm x
  · obtain ⟨x, rfl⟩ := isStm
    have inside := mt (stm x rfl a) changed
    rw [regCount] at inside
    exact .inr ⟨x, rfl, by omega, by omega⟩
  · exact absurd (others (not_exists.1 isBcd) (not_exists.1 isStm) a) changed

/-- Settles O44: of the phases of a core cycle only the instruction's commit writes memory. -/
theorem stepChangesOnlyStoredBytes : Obligations.StepChangesOnlyStoredBytes := by
  intro s t a h changed
  obtain ⟨-, -, ⟨i, u, decoded, he, rfl⟩ | ⟨_, -, rfl⟩⟩ := step_next h
  · rw [endCycle_mem] at changed
    obtain ⟨x, rfl, range⟩ | ⟨x, rfl, range⟩ := stored_of_byteAt_exec_ne (s := tickService s) he changed
    · exact .inl ⟨x, decoded, range⟩
    · exact .inr ⟨x, decoded, range⟩
  · rw [endCycle_mem, mem_complete_self] at changed
    exact absurd rfl changed

/-! ### A completed store -/

/-- Bytes that fit are stored, and the core goes on to the next word (R65, R183, R184). -/
theorem storeAtIndex_completes {s : State} {bs : List Byte} (next : NextInRange s)
    (fits : s.i.toNat + bs.length ≤ 65536) :
    storeAtIndex bs s =
      .next { s with mem := putBytes s.mem (effectiveAddress s 0) bs, pc := s.pc + 2, wait := false } := by
  obtain ⟨lo, hi⟩ := next
  have legal : pcLegal (s.pc.toNat + 2) = true := (pcLegal_iff _).2 ⟨by omega, hi⟩
  have span : spanFits (effectiveAddress s 0) bs.length = true := (spanFits_iff _ _).2 (.inr fits)
  rw [storeAtIndex, writeSpan, if_pos span]
  exact congrArg _ (complete_legal legal _)

theorem regBytes_getElem (s : State) {x k : Reg} (le : k ≤ x) :
    (regBytes s x)[k.val]'(by rw [regBytes_length]; exact Nat.lt_succ_of_le le) = getV s k := by
  simp only [regBytes, List.getElem_take, Vector.getElem_toList]
  rfl

/-- After a completed `Fx55` memory reads `V[k]` at `I + k` (R184). -/
theorem byteAt_exec_stm {x k : Reg} {s t : State} (wf : s.mem.wf = true) (next : NextInRange s)
    (fits : s.i.toNat + x.val < 65536) (h : exec (.stm x) s = .next t) (le : k ≤ x) :
    byteAt t.mem (s.i.toNat + k.val) = getV s k := by
  have length := regBytes_length s x
  have completes := storeAtIndex_completes (bs := regBytes s x) next (by omega)
  cases completes.symm.trans h
  have bound : k.val < (regBytes s x).length := by rw [length]; exact Nat.lt_succ_of_le le
  have inMemory : effectiveAddress s 0 + (regBytes s x).length ≤ Config.memSize := by
    rw [length, effectiveAddress_zero]
    exact fits
  exact (byteAt_putBytes_same wf inMemory bound).trans (regBytes_getElem s le)

/-- Settles O28: the two bytes at `PC` are the two registers `Fx55` stored there. -/
theorem storeIsSeenByNextFetch : Obligations.StoreIsSeenByNextFetch := by
  intro x k s t r wf next fits lt h mem pc
  have high : byteAt t.mem (s.i.toNat + k.val) = getV s k := byteAt_exec_stm wf next fits h (Nat.le_of_lt lt)
  have low := byteAt_exec_stm (k := ⟨k.val + 1, by omega⟩) wf next fits h lt
  rw [fetch, mem, pc, high, Nat.add_assoc, low, wordOfBytes]

end Sys2Proof.Machine
end

section
/-! PROOFS. The decoder against the opcode map: what a row selects by, which words it holds, which words no row
holds, and the round trip through the layouts (R91 to R101). -/

namespace Sys2Proof

/-! ### The formats put fields side by side -/

theorem formatA_inj {c c' : BitVec 4} {a a' : BitVec 12} : formatA c a = formatA c' a' ↔ c = c' ∧ a = a' := by
  constructor
  · intro h
    exact ⟨by simpa using congrArg classField h, by simpa using congrArg nnnField h⟩
  · rintro ⟨rfl, rfl⟩
    rfl

theorem formatXI_inj {c c' : BitVec 4} {x x' : Reg} {nn nn' : Byte} :
    formatXI c x nn = formatXI c' x' nn' ↔ c = c' ∧ x = x' ∧ nn = nn' := by
  constructor
  · intro h
    exact ⟨by simpa using congrArg classField h, by simpa using congrArg xField h, by simpa using congrArg nnField h⟩
  · rintro ⟨rfl, rfl, rfl⟩
    rfl

theorem formatXYN_inj {c c' : BitVec 4} {x x' y y' : Reg} {n n' : BitVec 4} :
    formatXYN c x y n = formatXYN c' x' y' n' ↔ c = c' ∧ x = x' ∧ y = y' ∧ n = n' := by
  constructor
  · intro h
    exact ⟨by simpa using congrArg classField h, by simpa using congrArg xField h,
      by simpa using congrArg yField h, by simpa using congrArg nField h⟩
  · rintro ⟨rfl, rfl, rfl, rfl⟩
    rfl

theorem formatA_fields (op : Word) : formatA (classField op) (nnnField op) = op := by
  apply BitVec.eq_of_toNat_eq
  rw [formatA_toNat, classField_toNat, nnnField_toNat]
  omega

theorem formatXI_fields (op : Word) : formatXI (classField op) (xField op) (nnField op) = op := by
  apply BitVec.eq_of_toNat_eq
  rw [formatXI_toNat, classField_toNat, xField_val, nnField_toNat]
  omega

theorem formatXYN_fields (op : Word) :
    formatXYN (classField op) (xField op) (yField op) (nField op) = op := by
  apply BitVec.eq_of_toNat_eq
  rw [formatXYN_toNat, classField_toNat, xField_val, yField_val, nField_toNat]
  omega

/-! ### The masks of R95 keep fields -/

theorem and_mask_class (op : Word) : op &&& 0xF000 = formatA (classField op) 0 := by
  have mask : (0xF000 : Word) = BitVec.allOnes 4 ++ 0#12 := rfl
  conv_lhs => rw [← formatA_fields op, formatA, mask, BitVec.and_append, BitVec.and_allOnes, BitVec.and_zero]
  rfl

theorem and_mask_classN (op : Word) : op &&& 0xF00F = formatXYN (classField op) 0 0 (nField op) := by
  have mask : (0xF00F : Word) = BitVec.allOnes 4 ++ 0#4 ++ 0#4 ++ BitVec.allOnes 4 := rfl
  conv_lhs => rw [← formatXYN_fields op, formatXYN, mask, BitVec.and_append, BitVec.and_append, BitVec.and_append,
    BitVec.and_allOnes, BitVec.and_zero, BitVec.and_zero, BitVec.and_allOnes]
  rfl

theorem and_mask_classNN (op : Word) : op &&& 0xF0FF = formatXI (classField op) 0 (nnField op) := by
  have mask : (0xF0FF : Word) = BitVec.allOnes 4 ++ 0#4 ++ BitVec.allOnes 8 := rfl
  conv_lhs => rw [← formatXI_fields op, formatXI, mask, BitVec.and_append, BitVec.and_append,
    BitVec.and_allOnes, BitVec.and_zero, BitVec.and_allOnes]
  rfl

theorem and_mask_word (op : Word) : op &&& 0xFFFF = formatA (classField op) (nnnField op) :=
  BitVec.and_allOnes.trans (formatA_fields op).symm

/-! ### What a row selects by -/

/-- The fields on which a row of R95 is selected, with the values it wants there (R94, R96 to R98). -/
inductive Selector where
  | cls (c : BitVec 4)
  | clsN (c n : BitVec 4)
  | clsNN (c : BitVec 4) (nn : Byte)
  | clsNNN (c : BitVec 4) (nnn : BitVec 12)

/-- The fields of the word have the values the selector wants. -/
def Selector.Holds : Selector → Word → Prop
  | .cls c, op => classField op = c
  | .clsN c n, op => classField op = c ∧ nField op = n
  | .clsNN c nn, op => classField op = c ∧ nnField op = nn
  | .clsNNN c nnn, op => classField op = c ∧ nnnField op = nnn

/-- The bits of the fields a selector looks at (R95). -/
def Selector.mask : Selector → Word
  | .cls _ => 0xF000
  | .clsN _ _ => 0xF00F
  | .clsNN _ _ => 0xF0FF
  | .clsNNN _ _ => 0xFFFF

/-- The word with the selector's fields and every other field 0 (R93, R95). -/
def Selector.pattern : Selector → Word
  | .cls c => formatA c 0
  | .clsN c n => formatXYN c 0 0 n
  | .clsNN c nn => formatXI c 0 nn
  | .clsNNN c nnn => formatA c nnn

theorem Selector.and_mask_eq_pattern_iff (sel : Selector) (op : Word) :
    op &&& sel.mask = sel.pattern ↔ sel.Holds op := by
  cases sel with
  | cls c => simp only [mask, pattern, Holds, and_mask_class, formatA_inj, and_true]
  | clsN c n => simp only [mask, pattern, Holds, and_mask_classN, formatXYN_inj, true_and]
  | clsNN c nn => simp only [mask, pattern, Holds, and_mask_classNN, formatXI_inj, true_and]
  | clsNNN c nnn => simp only [mask, pattern, Holds, and_mask_word, formatA_inj]

/-- The class of each row, and its code where the class alone does not decide (R94, R96 to R99). -/
def Row.selector : Row → Selector
  | .cls => .clsNNN 0x0 0x0E0 | .ret => .clsNNN 0x0 0x0EE
  | .jp => .cls 0x1 | .call => .cls 0x2 | .seI => .cls 0x3 | .sneI => .cls 0x4 | .seR => .cls 0x5
  | .ldI => .cls 0x6 | .addI => .cls 0x7
  | .ldR => .clsN 0x8 0x0 | .orR => .clsN 0x8 0x1 | .andR => .clsN 0x8 0x2 | .xorR => .clsN 0x8 0x3
  | .addR => .clsN 0x8 0x4 | .sub => .clsN 0x8 0x5 | .shr => .clsN 0x8 0x6 | .subn => .clsN 0x8 0x7
  | .shl => .clsN 0x8 0xE
  | .sneR => .cls 0x9 | .ldIdx => .cls 0xA | .jpV0 => .cls 0xB | .rnd => .cls 0xC | .drw => .cls 0xD
  | .skp => .clsNN 0xE 0x9E | .sknp => .clsNN 0xE 0xA1
  | .ldRdt => .clsNN 0xF 0x07 | .ldKey => .clsNN 0xF 0x0A | .ldWdt => .clsNN 0xF 0x15
  | .ldWst => .clsNN 0xF 0x18 | .addIdx => .clsNN 0xF 0x1E | .ldFont => .clsNN 0xF 0x29
  | .bcd => .clsNN 0xF 0x33 | .stm => .clsNN 0xF 0x55 | .ldm => .clsNN 0xF 0x65

theorem Row.mask_eq (r : Row) : r.mask = r.selector.mask := by cases r <;> rfl

theorem Row.pattern_eq (r : Row) : r.pattern = r.selector.pattern := by cases r <;> rfl

/-- The test of R95, `(op & mask) == match`, compares the fields the row is selected by. -/
theorem Row.and_mask_eq_pattern_iff (r : Row) (op : Word) :
    op &&& r.mask = r.pattern ↔ r.selector.Holds op := by
  rw [r.mask_eq, r.pattern_eq, Selector.and_mask_eq_pattern_iff]

/-! ### What the decoder answers -/

/-- The instruction of a row with the fields of a word as its operands (R91, R93). -/
def Row.instrOf : Row → Word → Instr
  | .cls, _ => .cls
  | .ret, _ => .ret
  | .jp, op => .jp (nnnField op)
  | .call, op => .call (nnnField op)
  | .seI, op => .seI (xField op) (nnField op)
  | .sneI, op => .sneI (xField op) (nnField op)
  | .seR, op => .seR (xField op) (yField op)
  | .ldI, op => .ldI (xField op) (nnField op)
  | .addI, op => .addI (xField op) (nnField op)
  | .ldR, op => .ldR (xField op) (yField op)
  | .orR, op => .orR (xField op) (yField op)
  | .andR, op => .andR (xField op) (yField op)
  | .xorR, op => .xorR (xField op) (yField op)
  | .addR, op => .addR (xField op) (yField op)
  | .sub, op => .sub (xField op) (yField op)
  | .shr, op => .shr (xField op) (yField op)
  | .subn, op => .subn (xField op) (yField op)
  | .shl, op => .shl (xField op) (yField op)
  | .sneR, op => .sneR (xField op) (yField op)
  | .ldIdx, op => .ldIdx (nnnField op)
  | .jpV0, op => .jpV0 (nnnField op)
  | .rnd, op => .rnd (xField op) (nnField op)
  | .drw, op => .drw (xField op) (yField op) (nField op)
  | .skp, op => .skp (xField op)
  | .sknp, op => .sknp (xField op)
  | .ldRdt, op => .ldRdt (xField op)
  | .ldKey, op => .ldKey (xField op)
  | .ldWdt, op => .ldWdt (xField op)
  | .ldWst, op => .ldWst (xField op)
  | .addIdx, op => .addIdx (xField op)
  | .ldFont, op => .ldFont (xField op)
  | .bcd, op => .bcd (xField op)
  | .stm, op => .stm (xField op)
  | .ldm, op => .ldm (xField op)

@[simp] theorem row_instrOf (r : Row) (op : Word) : (r.instrOf op).row = r := by cases r <;> rfl

theorem decode_class0 {op : Word} (h : classField op = 0x0) : decode op = decodeClass0 op := by
  simp [decode, decodeWith, h]

theorem decode_class8 {op : Word} (h : classField op = 0x8) : decode op = decodeClass8 op := by
  simp [decode, decodeWith, h]

theorem decode_classE {op : Word} (h : classField op = 0xE) : decode op = decodeClassE op := by
  simp [decode, decodeWith, h]

theorem decode_classF {op : Word} (h : classField op = 0xF) : decode op = decodeClassF op := by
  simp [decode, decodeWith, h]

/-- Classes 0x5 and 0x9 decode on the class nibble alone (R99). -/
@[simp] theorem decodeClass59_ignoreLow (op : Word) (i : Instr) :
    decodeClass59 ignoreLowNibble59 op i = .ok i := rfl

/-- A word with a row's class and code decodes to that row's instruction (R94 to R99). -/
theorem decode_of_holds {r : Row} {op : Word} (h : r.selector.Holds op) : decode op = .ok (r.instrOf op) := by
  cases r
  case cls | ret =>
    obtain ⟨hc, hnnn⟩ := h
    simp [decode_class0 hc, decodeClass0, hnnn, Row.instrOf]
  case ldR | orR | andR | xorR | addR | sub | shr | subn | shl =>
    obtain ⟨hc, hn⟩ := h
    simp [decode_class8 hc, decodeClass8, hn, Row.instrOf]
  case skp | sknp =>
    obtain ⟨hc, hnn⟩ := h
    simp [decode_classE hc, decodeClassE, hnn, Row.instrOf]
  case ldRdt | ldKey | ldWdt | ldWst | addIdx | ldFont | bcd | stm | ldm =>
    obtain ⟨hc, hnn⟩ := h
    simp [decode_classF hc, decodeClassF, hnn, Row.instrOf]
  all_goals
    have hc : classField op = _ := h
    simp [decode, decodeWith, hc, Row.instrOf]

theorem holds_of_decodeClass0 {op : Word} {i : Instr} (hc : classField op = 0x0) (h : decodeClass0 op = .ok i) :
    i.row.selector.Holds op := by
  unfold decodeClass0 at h
  split at h <;> cases h <;> exact ⟨hc, BitVec.eq_of_toNat_eq ‹_›⟩

theorem holds_of_decodeClass8 {op : Word} {i : Instr} (hc : classField op = 0x8) (h : decodeClass8 op = .ok i) :
    i.row.selector.Holds op := by
  unfold decodeClass8 at h
  split at h <;> cases h <;> exact ⟨hc, BitVec.eq_of_toNat_eq ‹_›⟩

theorem holds_of_decodeClassE {op : Word} {i : Instr} (hc : classField op = 0xE) (h : decodeClassE op = .ok i) :
    i.row.selector.Holds op := by
  unfold decodeClassE at h
  split at h <;> cases h <;> exact ⟨hc, BitVec.eq_of_toNat_eq ‹_›⟩

theorem holds_of_decodeClassF {op : Word} {i : Instr} (hc : classField op = 0xF) (h : decodeClassF op = .ok i) :
    i.row.selector.Holds op := by
  unfold decodeClassF at h
  split at h <;> cases h <;> exact ⟨hc, BitVec.eq_of_toNat_eq ‹_›⟩

/-- Whatever the decoder answers, the word has the class and the code of its row. -/
theorem holds_of_decode {op : Word} {i : Instr} (h : decode op = .ok i) : i.row.selector.Holds op := by
  unfold decode decodeWith at h
  split at h
  case h_1 code => exact holds_of_decodeClass0 (BitVec.eq_of_toNat_eq code) h
  case h_9 code => exact holds_of_decodeClass8 (BitVec.eq_of_toNat_eq code) h
  case h_15 code => exact holds_of_decodeClassE (BitVec.eq_of_toNat_eq code) h
  case h_16 =>
    simp only [imp_false] at *
    have code : (classField op).toNat = 15 := by omega
    exact holds_of_decodeClassF (BitVec.eq_of_toNat_eq code) h
  all_goals
    cases h
    exact BitVec.eq_of_toNat_eq ‹_›

/-! ### The round trip (R61, R93, R95) -/

/-- The word of an instruction has the class and the code of its row, and its operands in the fields (R93). -/
theorem encode_fields (i : Instr) : i.row.selector.Holds (encode i) ∧ i.row.instrOf (encode i) = i := by
  cases i
  case cls | ret => exact ⟨⟨rfl, rfl⟩, rfl⟩
  all_goals simp [Instr.row, Row.selector, Selector.Holds, encode, Row.instrOf]

theorem decode_encode (i : Instr) : decode (encode i) = .ok i := by
  obtain ⟨holds, operands⟩ := encode_fields i
  rw [decode_of_holds holds, operands]

/-- Settles O1: every instruction's operands stand in the fields of its word, and the two bytes make up the word
again. -/
theorem decodeOfEncode : Obligations.DecodeOfEncode := by
  intro i rest
  have bytes : decodeBytes (encodeBytes i ++ rest) = .ok (i, rest) := by
    simp [encodeBytes, decodeBytes, decode_encode]
  exact ⟨decode_encode i, bytes⟩

/-! ### The opcode map as a table (R95) -/

/-- Settles O2: both sides say that the word has the row's class and code. -/
theorem wordMatchesRowExactly : Obligations.WordMatchesRowExactly := by
  intro op r
  rw [r.and_mask_eq_pattern_iff]
  constructor
  · rintro ⟨i, decoded, rfl⟩
    exact holds_of_decode decoded
  · intro h
    exact ⟨_, decode_of_holds h, row_instrOf r op⟩

/-! ### The unrecognised words (R96 to R98, R100) -/

theorem decodeClass0_refuses_iff (op : Word) :
    (∃ e, decodeClass0 op = .error e) ↔ nnnField op ≠ 0x0E0 ∧ nnnField op ≠ 0x0EE := by
  unfold decodeClass0
  split <;> simp_all [← BitVec.toNat_inj]

theorem decodeClass8_refuses_iff (op : Word) :
    (∃ e, decodeClass8 op = .error e) ↔ nField op ∈ [0x8, 0x9, 0xA, 0xB, 0xC, 0xD, 0xF] := by
  unfold decodeClass8
  split
  case h_10 =>
    simp only [imp_false] at *
    simp [← BitVec.toNat_inj]
    omega
  all_goals simp_all [← BitVec.toNat_inj]

theorem decodeClassE_refuses_iff (op : Word) :
    (∃ e, decodeClassE op = .error e) ↔ nnField op ∉ [0x9E, 0xA1] := by
  unfold decodeClassE
  split <;> simp_all [← BitVec.toNat_inj]

theorem decodeClassF_refuses_iff (op : Word) :
    (∃ e, decodeClassF op = .error e) ↔
      nnField op ∉ [0x07, 0x0A, 0x15, 0x18, 0x1E, 0x29, 0x33, 0x55, 0x65] := by
  unfold decodeClassF
  split <;> simp_all [← BitVec.toNat_inj]

/-- Only the decoders of classes 0, 8, E and F refuse a word (R94). -/
theorem decode_refuses_iff (op : Word) : (∃ e, decode op = .error e) ↔
    (classField op = 0x0 ∧ ∃ e, decodeClass0 op = .error e) ∨
    (classField op = 0x8 ∧ ∃ e, decodeClass8 op = .error e) ∨
    (classField op = 0xE ∧ ∃ e, decodeClassE op = .error e) ∨
    (classField op = 0xF ∧ ∃ e, decodeClassF op = .error e) := by
  unfold decode decodeWith
  split
  case h_16 =>
    simp only [imp_false] at *
    have code : (classField op).toNat = 15 := by omega
    simp [← BitVec.toNat_inj, code]
  all_goals
    have code : (classField op).toNat = _ := ‹_›
    simp [← BitVec.toNat_inj, code]

/-- Settles O3: only the decoders of four classes refuse a word, each on its own codes. -/
theorem unrecognisedWordsExactly : Obligations.UnrecognisedWordsExactly := by
  intro op
  rw [decode_refuses_iff, decodeClass0_refuses_iff, decodeClass8_refuses_iff, decodeClassE_refuses_iff,
    decodeClassF_refuses_iff]

/-- Settles O4: the decoder evaluated on each of the words. -/
theorem sampleWordsDecode : Obligations.SampleWordsDecode := by
  unfold Obligations.SampleWordsDecode
  decide

end Sys2Proof
end

section
/-! PROOFS. Lines of assembly: the well-formed ones are the lines of the instructions, and the word a line is
assembled to is the word of the layouts (R92, R93, R108). -/

namespace Sys2Proof

/-! ### The word of a line -/

/-- The line of assembly of every instruction is well-formed and names its row (R101, R108). -/
theorem toAsm_wellFormed : ∀ i : Instr, Laws.WellFormed.Statement i
  | .cls => Laws.WellFormed.cls
  | .ret => Laws.WellFormed.ret
  | .jp nnn => Laws.WellFormed.jp nnn
  | .call nnn => Laws.WellFormed.call nnn
  | .seI x nn => Laws.WellFormed.seI x nn
  | .sneI x nn => Laws.WellFormed.sneI x nn
  | .seR x y => Laws.WellFormed.seR x y
  | .ldI x nn => Laws.WellFormed.ldI x nn
  | .addI x nn => Laws.WellFormed.addI x nn
  | .ldR x y => Laws.WellFormed.ldR x y
  | .orR x y => Laws.WellFormed.orR x y
  | .andR x y => Laws.WellFormed.andR x y
  | .xorR x y => Laws.WellFormed.xorR x y
  | .addR x y => Laws.WellFormed.addR x y
  | .sub x y => Laws.WellFormed.sub x y
  | .shr x y => Laws.WellFormed.shr x y
  | .subn x y => Laws.WellFormed.subn x y
  | .shl x y => Laws.WellFormed.shl x y
  | .sneR x y => Laws.WellFormed.sneR x y
  | .ldIdx nnn => Laws.WellFormed.ldIdx nnn
  | .jpV0 nnn => Laws.WellFormed.jpV0 nnn
  | .rnd x nn => Laws.WellFormed.rnd x nn
  | .drw x y n => Laws.WellFormed.drw x y n
  | .skp x => Laws.WellFormed.skp x
  | .sknp x => Laws.WellFormed.sknp x
  | .ldRdt x => Laws.WellFormed.ldRdt x
  | .ldKey x => Laws.WellFormed.ldKey x
  | .ldWdt x => Laws.WellFormed.ldWdt x
  | .ldWst x => Laws.WellFormed.ldWst x
  | .addIdx x => Laws.WellFormed.addIdx x
  | .ldFont x => Laws.WellFormed.ldFont x
  | .bcd x => Laws.WellFormed.bcd x
  | .stm x => Laws.WellFormed.stm x
  | .ldm x => Laws.WellFormed.ldm x

theorem formatA_zero_eq_formatXI (c : BitVec 4) : formatA c 0 = formatXI c 0 0 := by
  apply BitVec.eq_of_toNat_eq
  simp [formatA_toNat, formatXI_toNat]

theorem formatA_zero_eq_formatXYN (c : BitVec 4) : formatA c 0 = formatXYN c 0 0 0 := by
  apply BitVec.eq_of_toNat_eq
  simp [formatA_toNat, formatXYN_toNat]

/-- `nnn` placed over a class (R108). -/
theorem formatA_or_nnn (c : BitVec 4) (nnn : BitVec 12) :
    formatA c 0 ||| BitVec.ofNat 16 nnn.toNat = formatA c nnn := by
  have placed : BitVec.ofNat 16 nnn.toNat = 0#4 ++ nnn := by
    apply BitVec.eq_of_toNat_eq
    rw [append_toNat, BitVec.toNat_ofNat, BitVec.toNat_ofNat]
    omega
  rw [placed, formatA, BitVec.or_append, BitVec.or_zero]
  exact congrArg _ BitVec.zero_or

/-- `x` and `nn` placed over a class and a code (R108); of the code and `nn` every row has one. -/
theorem formatXI_or_place (c : BitVec 4) (x : Reg) (code nn : Byte) :
    formatXI c 0 code ||| BitVec.ofNat 16 (x.val * 256 + nn.toNat) = formatXI c x (code ||| nn) := by
  have placed : BitVec.ofNat 16 (x.val * 256 + nn.toNat) = formatXI 0#4 x nn := by
    apply BitVec.eq_of_toNat_eq
    rw [formatXI_toNat, BitVec.toNat_ofNat, BitVec.toNat_ofNat]
    omega
  rw [placed, formatXI, formatXI, BitVec.or_append, BitVec.or_append, BitVec.or_zero]
  exact congrArg (c ++ · ++ _) BitVec.zero_or

theorem formatA_or_x_nn (c : BitVec 4) (x : Reg) (nn : Byte) :
    formatA c 0 ||| BitVec.ofNat 16 (x.val * 256 + nn.toNat) = formatXI c x nn := by
  rw [formatA_zero_eq_formatXI, formatXI_or_place]
  exact congrArg _ BitVec.zero_or

theorem formatXI_or_x (c : BitVec 4) (x : Reg) (code : Byte) :
    formatXI c 0 code ||| BitVec.ofNat 16 (x.val * 256) = formatXI c x code := by
  simpa using formatXI_or_place c x code 0

/-- `x`, `y` and `n` placed over a class and a code (R108); of the code and `n` every row has one. -/
theorem formatXYN_or_place (c : BitVec 4) (x y : Reg) (code n : BitVec 4) :
    formatXYN c 0 0 code ||| BitVec.ofNat 16 (x.val * 256 + y.val * 16 + n.toNat) =
      formatXYN c x y (code ||| n) := by
  have placed : BitVec.ofNat 16 (x.val * 256 + y.val * 16 + n.toNat) = formatXYN 0#4 x y n := by
    apply BitVec.eq_of_toNat_eq
    rw [formatXYN_toNat, BitVec.toNat_ofNat, BitVec.toNat_ofNat]
    omega
  rw [placed, formatXYN, formatXYN, BitVec.or_append, BitVec.or_append, BitVec.or_append, BitVec.or_zero]
  exact congrArg₂ (c ++ · ++ · ++ _) BitVec.zero_or BitVec.zero_or

theorem formatA_or_x_y_n (c : BitVec 4) (x y : Reg) (n : BitVec 4) :
    formatA c 0 ||| BitVec.ofNat 16 (x.val * 256 + y.val * 16 + n.toNat) = formatXYN c x y n := by
  rw [formatA_zero_eq_formatXYN, formatXYN_or_place]
  exact congrArg _ BitVec.zero_or

theorem formatXYN_or_x_y (c : BitVec 4) (x y : Reg) (code : BitVec 4) :
    formatXYN c 0 0 code ||| BitVec.ofNat 16 (x.val * 256 + y.val * 16) = formatXYN c x y code := by
  simpa using formatXYN_or_place c x y code 0

theorem formatA_or_x_y (c : BitVec 4) (x y : Reg) :
    formatA c 0 ||| BitVec.ofNat 16 (x.val * 256 + y.val * 16) = formatXYN c x y 0 := by
  rw [formatA_zero_eq_formatXYN, formatXYN_or_x_y]

/-- The row's `match` with the operands of an instruction's line in their places is its word (R93, R108). -/
theorem pattern_or_operands (i : Instr) :
    i.row.pattern ||| BitVec.ofNat 16 (placeOperands i.row.places i.toAsm.operands) = encode i := by
  cases i
  case cls | ret => rfl
  all_goals
    simp only [Row.pattern_eq, Instr.row, Row.selector, Selector.pattern, Row.places, Instr.toAsm, placeOperands,
      AsmOperand.value, encode, formatA_or_nnn, formatA_or_x_nn, formatA_or_x_y, formatA_or_x_y_n, formatXI_or_x,
      formatXYN_or_x_y]

/-- Settles O5: the line is well-formed and names the instruction's row, whose `match` takes the operands. -/
theorem assemblyAgreesWithEncoding : Obligations.AssemblyAgreesWithEncoding := by
  intro i
  obtain ⟨wellFormed, row⟩ := toAsm_wellFormed i
  have word : assemble i.toAsm = some _ := if_pos wellFormed
  rw [word, row, pattern_or_operands]

/-! ### The well-formed lines -/

theorem fits_reg {o : AsmOperand} (h : AsmPlace.fits .reg o = true) : ∃ x : Reg, o = .reg x.val := by
  cases o with
  | reg k => exact ⟨⟨k, of_decide_eq_true h⟩, rfl⟩
  | num v => cases h

theorem fits_imm {bits : Nat} {o : AsmOperand} (h : AsmPlace.fits (.imm bits) o = true) :
    ∃ v : BitVec bits, o = .num v.toNat := by
  cases o with
  | reg k => cases h
  | num v => exact ⟨BitVec.ofNatLT v (of_decide_eq_true h), by rw [BitVec.toNat_ofNatLT]⟩

theorem fitsAll_nil {os : List AsmOperand} (h : fitsAll [] os = true) : os = [] := by
  cases os with
  | nil => rfl
  | cons o os => cases h

theorem fitsAll_cons {p : AsmPlace} {ps : List AsmPlace} {os : List AsmOperand} (h : fitsAll (p :: ps) os = true) :
    ∃ o os', os = o :: os' ∧ p.fits o = true ∧ fitsAll ps os' = true := by
  cases os with
  | nil => cases h
  | cons o os => exact ⟨o, os, rfl, Bool.and_eq_true_iff.1 h⟩

theorem fitsAll_reg_cons {ps : List AsmPlace} {os : List AsmOperand} (h : fitsAll (.reg :: ps) os = true) :
    ∃ (x : Reg) (os' : List AsmOperand), os = .reg x.val :: os' ∧ fitsAll ps os' = true := by
  obtain ⟨o, os', rfl, fits, rest⟩ := fitsAll_cons h
  obtain ⟨x, rfl⟩ := fits_reg fits
  exact ⟨x, os', rfl, rest⟩

theorem fitsAll_imm {bits : Nat} {os : List AsmOperand} (h : fitsAll [.imm bits] os = true) :
    ∃ v : BitVec bits, os = [.num v.toNat] := by
  obtain ⟨o, os', rfl, fits, rest⟩ := fitsAll_cons h
  obtain ⟨v, rfl⟩ := fits_imm fits
  exact ⟨v, by rw [fitsAll_nil rest]⟩

/-- The well-formed lines of a row with one register (R92, R108). -/
theorem line_reg {r : Row} {mk : Reg → Instr} (line : ∀ x, (mk x).toAsm = ⟨r, [.reg x]⟩) {os : List AsmOperand}
    (h : fitsAll [.reg] os = true) : ∃ i : Instr, i.toAsm = ⟨r, os⟩ := by
  obtain ⟨x, os', rfl, rest⟩ := fitsAll_reg_cons h
  cases fitsAll_nil rest
  exact ⟨mk x, line x⟩

/-- The well-formed lines of a row with two registers. -/
theorem line_reg_reg {r : Row} {mk : Reg → Reg → Instr} (line : ∀ x y, (mk x y).toAsm = ⟨r, [.reg x, .reg y]⟩)
    {os : List AsmOperand} (h : fitsAll [.reg, .reg] os = true) : ∃ i : Instr, i.toAsm = ⟨r, os⟩ := by
  obtain ⟨x, os', rfl, tail⟩ := fitsAll_reg_cons h
  obtain ⟨y, os'', rfl, rest⟩ := fitsAll_reg_cons tail
  cases fitsAll_nil rest
  exact ⟨mk x y, line x y⟩

/-- The well-formed lines of a row with `nnn`. -/
theorem line_imm {r : Row} {bits : Nat} {mk : BitVec bits → Instr} (line : ∀ v, (mk v).toAsm = ⟨r, [.num v.toNat]⟩)
    {os : List AsmOperand} (h : fitsAll [.imm bits] os = true) : ∃ i : Instr, i.toAsm = ⟨r, os⟩ := by
  obtain ⟨v, rfl⟩ := fitsAll_imm h
  exact ⟨mk v, line v⟩

/-- The well-formed lines of a row with a register and `nn`. -/
theorem line_reg_imm {r : Row} {bits : Nat} {mk : Reg → BitVec bits → Instr}
    (line : ∀ x v, (mk x v).toAsm = ⟨r, [.reg x, .num v.toNat]⟩) {os : List AsmOperand}
    (h : fitsAll [.reg, .imm bits] os = true) : ∃ i : Instr, i.toAsm = ⟨r, os⟩ := by
  obtain ⟨x, os', rfl, rest⟩ := fitsAll_reg_cons h
  obtain ⟨v, rfl⟩ := fitsAll_imm rest
  exact ⟨mk x v, line x v⟩

/-- The well-formed lines of a row with two registers and `n`. -/
theorem line_reg_reg_imm {r : Row} {bits : Nat} {mk : Reg → Reg → BitVec bits → Instr}
    (line : ∀ x y v, (mk x y v).toAsm = ⟨r, [.reg x, .reg y, .num v.toNat]⟩) {os : List AsmOperand}
    (h : fitsAll [.reg, .reg, .imm bits] os = true) : ∃ i : Instr, i.toAsm = ⟨r, os⟩ := by
  obtain ⟨x, os', rfl, tail⟩ := fitsAll_reg_cons h
  obtain ⟨y, os'', rfl, rest⟩ := fitsAll_reg_cons tail
  obtain ⟨v, rfl⟩ := fitsAll_imm rest
  exact ⟨mk x y v, line x y v⟩

/-- Every well-formed line is the line of an instruction (R92, R108). -/
theorem exists_toAsm_of_wellFormed {l : AsmLine} (h : l.wellFormed = true) : ∃ i : Instr, i.toAsm = l := by
  obtain ⟨row, os⟩ := l
  cases row with
  | cls => exact ⟨.cls, congrArg _ (fitsAll_nil h).symm⟩
  | ret => exact ⟨.ret, congrArg _ (fitsAll_nil h).symm⟩
  | jp => exact line_imm (mk := .jp) (fun _ => rfl) h
  | call => exact line_imm (mk := .call) (fun _ => rfl) h
  | seI => exact line_reg_imm (mk := .seI) (fun _ _ => rfl) h
  | sneI => exact line_reg_imm (mk := .sneI) (fun _ _ => rfl) h
  | seR => exact line_reg_reg (mk := .seR) (fun _ _ => rfl) h
  | ldI => exact line_reg_imm (mk := .ldI) (fun _ _ => rfl) h
  | addI => exact line_reg_imm (mk := .addI) (fun _ _ => rfl) h
  | ldR => exact line_reg_reg (mk := .ldR) (fun _ _ => rfl) h
  | orR => exact line_reg_reg (mk := .orR) (fun _ _ => rfl) h
  | andR => exact line_reg_reg (mk := .andR) (fun _ _ => rfl) h
  | xorR => exact line_reg_reg (mk := .xorR) (fun _ _ => rfl) h
  | addR => exact line_reg_reg (mk := .addR) (fun _ _ => rfl) h
  | sub => exact line_reg_reg (mk := .sub) (fun _ _ => rfl) h
  | shr => exact line_reg_reg (mk := .shr) (fun _ _ => rfl) h
  | subn => exact line_reg_reg (mk := .subn) (fun _ _ => rfl) h
  | shl => exact line_reg_reg (mk := .shl) (fun _ _ => rfl) h
  | sneR => exact line_reg_reg (mk := .sneR) (fun _ _ => rfl) h
  | ldIdx => exact line_imm (mk := .ldIdx) (fun _ => rfl) h
  | jpV0 => exact line_imm (mk := .jpV0) (fun _ => rfl) h
  | rnd => exact line_reg_imm (mk := .rnd) (fun _ _ => rfl) h
  | drw => exact line_reg_reg_imm (mk := .drw) (fun _ _ _ => rfl) h
  | skp => exact line_reg (mk := .skp) (fun _ => rfl) h
  | sknp => exact line_reg (mk := .sknp) (fun _ => rfl) h
  | ldRdt => exact line_reg (mk := .ldRdt) (fun _ => rfl) h
  | ldKey => exact line_reg (mk := .ldKey) (fun _ => rfl) h
  | ldWdt => exact line_reg (mk := .ldWdt) (fun _ => rfl) h
  | ldWst => exact line_reg (mk := .ldWst) (fun _ => rfl) h
  | addIdx => exact line_reg (mk := .addIdx) (fun _ => rfl) h
  | ldFont => exact line_reg (mk := .ldFont) (fun _ => rfl) h
  | bcd => exact line_reg (mk := .bcd) (fun _ => rfl) h
  | stm => exact line_reg (mk := .stm) (fun _ => rfl) h
  | ldm => exact line_reg (mk := .ldm) (fun _ => rfl) h

theorem assemble_isSome_iff (l : AsmLine) : (∃ w, assemble l = some w) ↔ l.wellFormed = true := by
  unfold assemble
  split <;> simp_all

/-- Settles O6: only well-formed lines assemble, and these are the lines of the instructions. -/
theorem assemblesExactlyTheInstructions : Obligations.AssemblesExactlyTheInstructions := by
  intro l
  rw [assemble_isSome_iff]
  constructor
  · exact exists_toAsm_of_wellFormed
  · rintro ⟨i, rfl⟩
    exact (toAsm_wellFormed i).1

end Sys2Proof
end

section
/-! PROOFS. The core cycle of a running core (R100, R101, R120). -/

namespace Sys2Proof.Machine

/-- The core cycle of a recognised word (R120). -/
theorem step_of_decode_ok {s : State} {i : Instr} (run : s.mode = .run) (pc : PcInRange s)
    (h : decode (fetch s) = .ok i) : step s = endOutcome (exec i (tickService s)) := by
  have legal : pcLegal s.pc.toNat = true := (pcLegal_iff _).2 pc
  simp only [step, run, legal, if_true, fetch_tickService, h]

/-- The core cycle of an unrecognised word (R120, R245). -/
theorem step_of_decode_error {s : State} {e : Unrecognised} (run : s.mode = .run) (pc : PcInRange s)
    (h : decode (fetch s) = .error e) : step s = endOutcome (execIllegal (fetch s) (tickService s)) := by
  have legal : pcLegal s.pc.toNat = true := (pcLegal_iff _).2 pc
  simp only [step, run, legal, if_true, fetch_tickService, h]

/-- No instruction is refused a meaning or stops the model (R101). -/
theorem exec_answers (i : Instr) (s : State) : ∃ t, exec i s = .next t := by
  obtain ⟨c, info, -, e⟩ | ⟨w, next, wait, -, e⟩ := exec_cases i s
  · exact ⟨_, e⟩
  · exact ⟨_, e⟩

/-- Settles O49: a recognised word's instruction answers a next state, an unrecognised word is reported. -/
theorem everyWordExecutes : Obligations.EveryWordExecutes := by
  intro s run pc
  cases h : decode (fetch s) with
  | ok i =>
    obtain ⟨t, ht⟩ := exec_answers i (tickService s)
    exact ⟨endCycle t, by rw [step_of_decode_ok run pc h, ht, endOutcome]⟩
  | error e => exact ⟨_, step_of_decode_error run pc h⟩

end Sys2Proof.Machine
end

section
/-! PROOFS. Control transfer (R122 to R130): the program-counter check, jumps, skips, and the call stack. -/

open Sys2Proof.Claims

namespace Sys2Proof.Machine

/-! ### The program-counter check -/

/-- A commit at an illegal address is the fault the rules name (R122, R246). -/
theorem commit_outOfRange {next : Nat} (out : next < 0x200 ∨ 0xFFFE < next) (before after : State) (wait : Bool) :
    commit before after next wait = haltedBy before .pcBounds next := by
  refine commit_illegal ?_ before after wait
  rw [pcLegal_iff]
  omega

/-- Settles O21: with no fault of its own an instruction reaches the commit at its `next_pc`, which discards it. -/
theorem pcBoundsAtCommit : Obligations.PcBoundsAtCommit := by
  intro i s noFault out
  obtain ⟨w, wait, -, e⟩ := exec_commits_of_no_ownFault noFault
  rw [e, commit_outOfRange out]

/-! ### Jumps -/

/-- An instruction that commits the state it read only sets `PC` (R122). -/
theorem jumpsTo_of_commit {i : Instr} {s : State} {target : Nat} (h : exec i s = .next (commit s s target false)) :
    JumpsTo i s target := by
  constructor
  · intro lo hi
    rw [h, commit_legal ((pcLegal_iff _).2 ⟨lo, hi⟩)]
  · intro out
    rw [h, commit_outOfRange out]

/-- Settles O15: both jumps commit the state they read at their target. -/
theorem jumpTargets : Obligations.JumpTargets :=
  ⟨fun _ jp => decode_of_holds (r := .jp) jp, fun _ jpV0 => decode_of_holds (r := .jpV0) jpV0,
    fun _ _ => jumpsTo_of_commit rfl, fun _ _ => jumpsTo_of_commit rfl⟩

/-! ### Skips -/

/-- The address `k` bytes after a word's, as a word. -/
theorem ofNat_toNat_add (w : Word) (k : Nat) : BitVec.ofNat 16 (w.toNat + k) = w + BitVec.ofNat 16 k := by
  rw [BitVec.ofNat_add, BitVec.ofNat_toNat, BitVec.setWidth_eq]

/-- A skip is a jump by its condition to the word after the next, or to the next (R27, R127). -/
theorem skipsWhen_of_skipIf {i : Instr} {s : State} {cond : Bool} (h : exec i s = skipIf cond s) :
    SkipsWhen i s cond := by
  obtain ⟨goes, faults⟩ : JumpsTo i s (skipTarget s cond) := jumpsTo_of_commit h
  cases cond with
  | true =>
    have target : skipTarget s true = s.pc.toNat + 4 := rfl
    rw [target] at goes faults
    refine ⟨fun ⟨lo, hi⟩ => ?_, fun _ => nofun, fun _ past => faults (.inr past), nofun⟩
    rw [goes (by omega) hi, ofNat_toNat_add]
    rfl
  | false =>
    have target : skipTarget s false = s.pc.toNat + 2 := rfl
    rw [target, ofNat_nextPc] at goes
    rw [target] at faults
    exact ⟨fun ⟨lo, hi⟩ => goes (by omega) (by omega), fun ⟨lo, hi⟩ _ => goes (by omega) hi, nofun,
      fun _ past => faults (.inr past)⟩

/-- Settles O19: each of the four is a skip on its condition, and classes 5 and 9 decode on the class alone. -/
theorem registerSkips : Obligations.RegisterSkips := by
  have differs : ∀ a b : Byte, (a != b) = decide (a ≠ b) := fun _ _ => (decide_not ..).symm
  refine ⟨fun _ seI => decode_of_holds (r := .seI) seI, fun _ sneI => decode_of_holds (r := .sneI) sneI,
    fun _ seR => decode_of_holds (r := .seR) seR, fun _ sneR => decode_of_holds (r := .sneR) sneR,
    fun _ _ _ => skipsWhen_of_skipIf rfl, fun x nn s => ?_, fun _ _ _ => skipsWhen_of_skipIf rfl, fun x y s => ?_⟩
  · exact skipsWhen_of_skipIf (by rw [exec_sneI, execSneI, differs])
  · exact skipsWhen_of_skipIf (by rw [exec_sneR, execSneR, differs])

/-! ### The call stack -/

theorem push_sp {s : State} (room : s.sp.val < 16) (w : Word) : (push s w).sp.val = s.sp.val + 1 := by
  rw [push_notFull room]

/-- The entry a push wrote is on top of the stack (R31). -/
theorem stackEntry_push {s : State} (room : s.sp.val < 16) (w : Word) : stackEntry (push s w) s.sp.val = w := by
  rw [stackEntry_of_lt _ room]
  simp only [push_notFull room, Vector.getElem_set_self]

/-- Reading an entry of the stack depends on `STK` alone. -/
theorem stackEntry_congr {s t : State} (h : s.stk = t.stk) (k : Nat) : stackEntry s k = stackEntry t k := by
  rw [stackEntry, stackEntry, h]

/-- A call with room on the stack pushes the return address, and the commit at its target decides (R125). -/
theorem exec_call_of_room {s : State} (room : s.sp.val < 16) (nnn : BitVec 12) :
    exec (.call nnn) s = .next (commit s (push s (s.pc + 2)) nnn.toNat false) :=
  if_neg (Nat.ne_of_lt room)

/-- A call with room on the stack and a legal target completes (R125). -/
theorem exec_call_completes {s : State} {nnn : BitVec 12} (room : s.sp.val < 16) (lo : 0x200 ≤ nnn.toNat) :
    exec (.call nnn) s =
      .next { push s (s.pc + 2) with pc := BitVec.ofNat 16 nnn.toNat, wait := false } := by
  have legal : pcLegal nnn.toNat = true := (pcLegal_iff _).2 ⟨lo, by omega⟩
  rw [exec_call_of_room room, commit_legal legal]

/-- Settles O16: the full stack is looked at first, then the target. -/
theorem callPushesReturnAddress : Obligations.CallPushesReturnAddress := by
  refine ⟨fun _ call => decode_of_holds (r := .call) call, fun nnn s room lo => ?_, fun nnn s full => ?_,
    fun nnn s room low => ?_⟩
  · rw [exec_call_completes room lo, push_notFull room]
  · rw [exec_call, execCall, if_pos full, full]
    rfl
  · rw [exec_call_of_room room, commit_outOfRange (.inl low)]

/-- A return from a stack that is not empty commits the pop at the address on top (R123). -/
theorem exec_ret_of_pos {s : State} (pos : 0 < s.sp.val) :
    exec .ret s = .next (commit s (pop s) (stackEntry s (s.sp.val - 1)).toNat false) :=
  if_neg (Nat.ne_of_gt pos)

/-- A return to a legal address completes (R123). -/
theorem exec_ret_completes {s : State} {w : Word} (pos : 0 < s.sp.val) (top : stackEntry s (s.sp.val - 1) = w)
    (lo : 0x200 ≤ w.toNat) (hi : w.toNat ≤ 0xFFFE) :
    exec .ret s = .next { pop s with pc := w, wait := false } := by
  rw [exec_ret_of_pos pos, top, commit_legal ((pcLegal_iff _).2 ⟨lo, hi⟩), BitVec.ofNat_toNat, BitVec.setWidth_eq]

/-- Settles O17: the empty stack is looked at first, then the popped address. -/
theorem returnPopsIntoPc : Obligations.ReturnPopsIntoPc := by
  refine ⟨decode_encode .ret, fun s pos inside lo hi => ?_, fun s empty => ?_, fun s pos inside out => ?_⟩
  · exact exec_ret_completes pos (stackEntry_of_lt s inside) lo hi
  · exact if_pos empty
  · rw [exec_ret_of_pos pos, stackEntry_of_lt s inside, commit_outOfRange out]

/-- Settles O18: the return pops the entry that the call pushed. -/
theorem callReturnRoundTrip : Obligations.CallReturnRoundTrip := by
  rintro nnn s t r room lo ⟨pcLo, pcHi⟩ call stk sp
  cases (exec_call_completes room lo).symm.trans call
  have spVal : r.sp.val = s.sp.val + 1 := (congrArg Fin.val sp).trans (push_sp room _)
  have top : stackEntry r (r.sp.val - 1) = s.pc + 2 := by
    rw [spVal, Nat.add_sub_cancel, stackEntry_congr (t := push s (s.pc + 2)) stk, stackEntry_push room]
  have address : (s.pc + 2).toNat = s.pc.toNat + 2 := BitVec.toNat_add_of_lt (by change s.pc.toNat + 2 < 65536; omega)
  refine ⟨_, exec_ret_completes (by omega) top (by omega) (by omega), rfl, Fin.ext ?_, rfl, rfl⟩
  change r.sp.val - 1 = s.sp.val
  omega

end Sys2Proof.Machine
end

section
/-! PROOFS. The core cycle from the fetch to its end (R61, R120, R252), and HALT (R35). -/

namespace Sys2Proof.Machine

/-- Settles O45: the two bytes at `PC` are the word that is fetched. -/
theorem stepRunsTheDecodedInstruction : Obligations.StepRunsTheDecodedInstruction :=
  fun _ _ run pc decoded => step_of_decode_ok run pc decoded

/-- Phases P and Q without a stop request (R120). -/
theorem presentAndPoll_of_quiet {s : State} (quiet : (inputNow s).stopReq = false) :
    presentAndPoll s = { s with events := .present :: s.events } := by
  simp [presentAndPoll, quiet]

/-- Phases P and Q with a stop request (R252). -/
theorem presentAndPoll_of_stop {s : State} (stop : (inputNow s).stopReq = true) :
    presentAndPoll s = haltWith { s with events := .present :: s.events } .stopRequest s.pc 0 := by
  simp [presentAndPoll, stop, haltWith]

/-- Settles O47: the end of a cycle after a commit, by what `stop_req` was, and after a fault. -/
theorem cycleEndsWithPresentAndStopPoll : Obligations.CycleEndsWithPresentAndStopPoll := by
  intro u
  refine ⟨fun run quiet => ?_, fun run stop => ?_, fun halt => ?_⟩
  · rw [endCycle_run run, presentAndPoll_of_quiet quiet]
    rfl
  · rw [endCycle_run run, presentAndPoll_of_stop stop]
    rfl
  · rw [endCycle_halt halt]
    rfl

/-- Settles O48: `step` looks at the mode before anything else. -/
theorem haltHasNoStep : Obligations.HaltHasNoStep := by
  intro s halt
  rw [step, halt]

end Sys2Proof.Machine
end

section
/-! PROOFS. Register load, arithmetic and logic (R150 to R163): what is written to `V[x]` and `VF`, and that the
flag accounts for what an 8-bit result lost. -/

open Sys2Proof.Claims

namespace Sys2Proof.Machine

/-! ### Instructions that go on to the next word -/

/-- An instruction that only hands its pending writes to the commit at `PC + 2` (R120, R122). -/
theorem goesOn_of_complete {i : Instr} {s w : State} (h : exec i s = .next (complete s w)) : GoesOn i s w := by
  constructor
  · rintro ⟨lo, hi⟩
    rw [h, complete_legal ((pcLegal_iff _).2 ⟨by omega, hi⟩)]
  · intro past
    rw [h]
    exact congrArg _ (commit_outOfRange (.inr past) s w false)

theorem goesOn_of_writeReg {i : Instr} {s : State} {x : Reg} {result b : Byte} (h : exec i s = writeReg x result s)
    (value : result = b) : GoesOn i s (setV s x b) := by
  subst value
  exact goesOn_of_complete h

/-- The flag is written last, so it stands when `x` is 0xF (R150). -/
theorem goesOn_of_writeRegFlag {i : Instr} {s : State} {x : Reg} {result b : Byte} {flag c : Bool}
    (h : exec i s = writeRegFlag x result flag s) (value : result = b) (lost : flag = c) :
    GoesOn i s (setV (setV s x b) 15 (bit c)) := by
  subst value lost
  exact goesOn_of_complete h

/-! ### The bytes and bits computed, as numbers -/

theorem sumByte_toNat (a b : Byte) : (sumByte a b).toNat = (a.toNat + b.toNat) % 256 := BitVec.toNat_ofNat ..

theorem diffByte_toNat (a b : Byte) : (diffByte a b).toNat = (a.toNat + 256 - b.toNat) % 256 :=
  BitVec.toNat_ofNat ..

theorem halfByte_toNat (b : Byte) : (halfByte b).toNat = b.toNat / 2 := by
  rw [halfByte, BitVec.toNat_ofNat]
  omega

theorem doubleByte_toNat (b : Byte) : (doubleByte b).toNat = b.toNat * 2 % 256 := BitVec.toNat_ofNat ..

theorem flagByte_toNat (p : Prop) [Decidable p] : (flagByte (decide p)).toNat = if p then 1 else 0 := by
  by_cases h : p
  · rw [decide_eq_true h, if_pos h]
    rfl
  · rw [decide_eq_false h, if_neg h]
    rfl

/-! ### The bytes and bits computed, as the rules write them -/

theorem sumByte_eq_ofNat_mod (a b : Byte) : sumByte a b = BitVec.ofNat 8 ((a.toNat + b.toNat) % 256) :=
  BitVec.eq_of_toNat_eq (by rw [sumByte_toNat, BitVec.toNat_ofNat, Nat.mod_mod])

theorem diffByte_eq_ofInt (a b : Byte) : diffByte a b = BitVec.ofInt 8 (a.toNat - b.toNat) := by
  apply BitVec.eq_of_toNat_eq
  rw [diffByte_toNat, BitVec.toNat_ofInt]
  omega

theorem halfByte_eq_shift (b : Byte) : halfByte b = b >>> 1 :=
  BitVec.eq_of_toNat_eq (by rw [halfByte_toNat, BitVec.toNat_ushiftRight, Nat.shiftRight_eq_div_pow, pow_one])

theorem doubleByte_eq_shift (b : Byte) : doubleByte b = b <<< 1 :=
  BitVec.eq_of_toNat_eq (by rw [doubleByte_toNat, BitVec.toNat_shiftLeft, Nat.shiftLeft_eq, pow_one])

theorem shiftedOutRight_eq_decide (b : Byte) : shiftedOutRight b = decide (b.toNat % 2 = 1) := by
  rw [shiftedOutRight, BitVec.getLsbD, Nat.testBit_zero]

theorem shiftedOutLeft_eq_decide (b : Byte) : shiftedOutLeft b = decide (128 ≤ b.toNat) := by
  rw [shiftedOutLeft, ← BitVec.msb_eq_getLsbD_last, BitVec.msb_eq_decide]

/-! ### What each instruction writes -/

/-- Settles O7: a word of the row decodes to it, and its one write is the immediate or `V[y]`. -/
theorem loadAndCopyRegister : Obligations.LoadAndCopyRegister :=
  ⟨fun _ ldI => decode_of_holds (r := .ldI) ldI, fun _ cls n => decode_of_holds (r := .ldR) ⟨cls, n⟩,
    fun _ _ _ => goesOn_of_writeReg rfl rfl, fun _ _ _ => goesOn_of_writeReg rfl rfl⟩

/-- Settles O8: a byte made of a natural number is that number mod 256. -/
theorem addImmediateWraps : Obligations.AddImmediateWraps :=
  ⟨fun _ addI => decode_of_holds (r := .addI) addI,
    fun _ _ _ => goesOn_of_writeReg rfl (sumByte_eq_ofNat_mod ..)⟩

/-- Settles O9: the three differ from a copy only in the byte written. -/
theorem bitwiseOperations : Obligations.BitwiseOperations :=
  ⟨fun _ cls n => decode_of_holds (r := .orR) ⟨cls, n⟩, fun _ cls n => decode_of_holds (r := .andR) ⟨cls, n⟩,
    fun _ cls n => decode_of_holds (r := .xorR) ⟨cls, n⟩, fun _ _ _ => goesOn_of_writeReg rfl rfl,
    fun _ _ _ => goesOn_of_writeReg rfl rfl, fun _ _ _ => goesOn_of_writeReg rfl rfl⟩

/-- Settles O10: the sum and its carry, both of the operands read before the writes. -/
theorem addWithCarryOut : Obligations.AddWithCarryOut :=
  ⟨fun _ cls n => decode_of_holds (r := .addR) ⟨cls, n⟩,
    fun _ _ _ => goesOn_of_writeRegFlag rfl (sumByte_eq_ofNat_mod ..) rfl⟩

/-- Settles O11: the byte the model computes without going below zero is the integer difference mod 256. -/
theorem subtractWithNoBorrowFlag : Obligations.SubtractWithNoBorrowFlag :=
  ⟨fun _ cls n => decode_of_holds (r := .sub) ⟨cls, n⟩, fun _ cls n => decode_of_holds (r := .subn) ⟨cls, n⟩,
    fun _ _ _ => goesOn_of_writeRegFlag rfl (diffByte_eq_ofInt ..) rfl,
    fun _ _ _ => goesOn_of_writeRegFlag rfl (diffByte_eq_ofInt ..) rfl⟩

/-- Settles O12: halving and doubling are the shifts by one, and the bit lost is bit 0 or bit 7. -/
theorem shiftByOne : Obligations.ShiftByOne :=
  ⟨fun _ cls n => decode_of_holds (r := .shr) ⟨cls, n⟩, fun _ cls n => decode_of_holds (r := .shl) ⟨cls, n⟩,
    fun _ _ _ => goesOn_of_writeRegFlag rfl (halfByte_eq_shift _) (shiftedOutRight_eq_decide _),
    fun _ _ _ => goesOn_of_writeRegFlag rfl (doubleByte_eq_shift _) (shiftedOutLeft_eq_decide _)⟩

/-- Settles O13: the byte on `rnd` is the sampled input's, with nothing asked of it. -/
theorem randomByteUnderMask : Obligations.RandomByteUnderMask :=
  ⟨fun _ rnd => decode_of_holds (r := .rnd) rnd, fun _ _ _ => goesOn_of_writeReg rfl rfl⟩

/-! ### The flag accounts for what the result lost (R163) -/

theorem sumByte_add_carryOut (a b : Byte) :
    (sumByte a b).toNat + 256 * (flagByte (carryOut a b)).toNat = a.toNat + b.toNat := by
  rw [sumByte_toNat, carryOut, flagByte_toNat]
  split <;> omega

theorem diffByte_add_noBorrow (a b : Byte) :
    (diffByte a b).toNat + b.toNat + 256 * (flagByte (noBorrow a b)).toNat = a.toNat + 256 := by
  rw [diffByte_toNat, noBorrow, flagByte_toNat]
  split <;> omega

theorem halfByte_add_shiftedOutRight (b : Byte) :
    2 * (halfByte b).toNat + (flagByte (shiftedOutRight b)).toNat = b.toNat := by
  rw [halfByte_toNat, shiftedOutRight_eq_decide, flagByte_toNat]
  split <;> omega

theorem doubleByte_add_shiftedOutLeft (b : Byte) :
    (doubleByte b).toNat + 256 * (flagByte (shiftedOutLeft b)).toNat = 2 * b.toNat := by
  rw [doubleByte_toNat, shiftedOutLeft_eq_decide, flagByte_toNat]
  split <;> omega

theorem getV_setResultAndFlag (s : State) (x : Reg) (result : Byte) (flag : Bool) (r : Reg) :
    getV (setResultAndFlag s x result flag) r =
      if r = vf then flagByte flag else if r = x then result else getV s r := by
  rw [setResultAndFlag, getV_setV, getV_setV]

/-- For `x` other than 0xF both the result and the flag can be read after the instruction (R150). -/
theorem getV_of_writeRegFlag {x : Reg} {result : Byte} {flag : Bool} {s t : State} (other : x ≠ 15)
    (next : NextInRange s) (h : writeRegFlag x result flag s = .next t) :
    getV t x = result ∧ getV t 15 = flagByte flag := by
  obtain ⟨lo, hi⟩ := next
  rw [writeRegFlag, complete_legal ((pcLegal_iff _).2 ⟨by omega, hi⟩)] at h
  have written : t.v = (setResultAndFlag s x result flag).v := by
    cases h
    rfl
  rw [getV_congr written, getV_congr written, getV_setResultAndFlag, getV_setResultAndFlag]
  exact ⟨(if_neg other).trans (if_pos rfl), if_pos rfl⟩

/-- Settles O14: the laws hold of the bytes computed, and for `x` other than 0xF the registers show both of them. -/
theorem flagsAccountForLostBits : Obligations.FlagsAccountForLostBits := by
  intro x y s t other next
  refine ⟨fun h => ?_, fun h => ?_, fun h => ?_, fun h => ?_, fun h => ?_⟩
  all_goals
    obtain ⟨result, flag⟩ := getV_of_writeRegFlag other next h
    rw [result, flag]
  · exact sumByte_add_carryOut ..
  · exact diffByte_add_noBorrow ..
  · exact diffByte_add_noBorrow ..
  · exact halfByte_add_shiftedOutRight _
  · exact doubleByte_add_shiftedOutLeft _

end Sys2Proof.Machine
end

section
/-! PROOFS. The index register and the transfers through it (R180 to R185): what is written to `I`, where stored
bytes go, what loaded registers read, and the fault of an access past the end of memory (R65, R244). -/

open Sys2Proof.Claims

namespace Sys2Proof.Machine

/-! ### The index register -/

theorem goesOn_of_writeIndex {i : Instr} {s : State} {w a : Word} (h : exec i s = writeIndex w s) (value : w = a) :
    GoesOn i s { s with i := a } := by
  subst value
  exact goesOn_of_complete h

theorem zext12_eq_ofNat (nnn : BitVec 12) : zext12 nnn = BitVec.ofNat 16 nnn.toNat :=
  (BitVec.ofNat_toNat 16 nnn).symm

theorem add_zext8_eq_ofNat_mod (w : Word) (b : Byte) :
    w + zext8 b = BitVec.ofNat 16 ((w.toNat + b.toNat) % 65536) := by
  apply BitVec.eq_of_toNat_eq
  rw [zext8, BitVec.toNat_add, BitVec.toNat_setWidth, BitVec.toNat_ofNat]
  omega

theorem glyphAddress_eq_ofNat (b : Byte) : glyphAddress b = BitVec.ofNat 16 (5 * (b.toNat % 16)) := by
  rw [glyphAddress, fontBase, Nat.zero_add, glyphBytes, lowNibble]

/-- Settles O23: each of the three only hands the commit the word it writes to `I`. -/
theorem indexRegisterWrites : Obligations.IndexRegisterWrites :=
  ⟨fun _ ldIdx => decode_of_holds (r := .ldIdx) ldIdx, fun _ cls nn => decode_of_holds (r := .addIdx) ⟨cls, nn⟩,
    fun _ cls nn => decode_of_holds (r := .ldFont) ⟨cls, nn⟩, fun _ _ => goesOn_of_writeIndex rfl (zext12_eq_ofNat _),
    fun _ _ => goesOn_of_writeIndex rfl (add_zext8_eq_ofNat_mod ..),
    fun _ _ => goesOn_of_writeIndex rfl (glyphAddress_eq_ofNat _)⟩

/-! ### Stores -/

/-- Bytes that fit go to the addresses from `I` upward in their order, and no other byte changes (R65, R71). -/
theorem storeAtIndex_writes {s : State} {bs : List Byte} (wf : s.mem.wf = true) (next : NextInRange s)
    (fits : s.i.toNat + bs.length ≤ 65536) :
    ∃ t, storeAtIndex bs s = .next t ∧ t = { s with mem := t.mem, pc := s.pc + 2, wait := false } ∧
      (∀ k, (h : k < bs.length) → byteAt t.mem (effectiveAddress s k) = bs[k]) ∧
      ∀ a, a < effectiveAddress s 0 ∨ effectiveAddress s 0 + bs.length ≤ a → byteAt t.mem a = byteAt s.mem a :=
  ⟨_, storeAtIndex_completes next fits, rfl, fun _ h => byteAt_putBytes_same wf fits h,
    fun _ outside => byteAt_putBytes_other outside⟩

/-- Bytes that do not fit are not stored: `MemBounds` with the highest address (R65, R244). -/
theorem storeAtIndex_faults {s : State} {bs : List Byte} (past : 65536 < s.i.toNat + bs.length) :
    storeAtIndex bs s = .next (haltedBy s .memBounds (s.i.toNat + bs.length - 1)) := by
  obtain ⟨-, fits⟩ | ⟨e, -⟩ := writeSpan_cases s.mem (effectiveAddress s 0) bs
  · rw [effectiveAddress_zero] at fits
    have small := s.i.isLt
    omega
  · rw [storeAtIndex, e]
    rfl

theorem decimalDigits_length (b : Byte) : (decimalDigits b).length = 3 := rfl

/-- A number below 256 is the value of its byte. -/
theorem toNat_byte_of_lt {n : Nat} (h : n < 256) : (BitVec.ofNat 8 n).toNat = n :=
  (BitVec.toNat_ofNat n 8).trans (Nat.mod_eq_of_lt h)

/-- Settles O24: the digits are three stored bytes, each below 256. -/
theorem bcdStoresDecimalDigits : Obligations.BcdStoresDecimalDigits := by
  refine ⟨fun _ cls nn => decode_of_holds (r := .bcd) ⟨cls, nn⟩, fun x s wf next fits => ?_,
    fun _ _ past => storeAtIndex_faults (Nat.lt_succ_of_le past),
    fun x s fits past => pcBoundsAtCommit (.bcd x) s (decide_eq_false (Nat.not_le_of_lt fits)) (.inr past)⟩
  obtain ⟨t, stores, rest, digits, others⟩ :=
    storeAtIndex_writes (bs := decimalDigits (getV s x)) wf next (Nat.succ_le_of_lt fits)
  have length := decimalDigits_length (getV s x)
  have small := (getV s x).isLt
  refine ⟨t, stores, rest, ?_, ?_, ?_, others⟩
  · rw [digits 0 (by omega)]
    exact toNat_byte_of_lt (by omega)
  · rw [digits 1 (by omega)]
    exact toNat_byte_of_lt (by omega)
  · rw [digits 2 (by omega)]
    exact toNat_byte_of_lt (by omega)

/-- Settles O25: the stored bytes are the registers up to `x`, `V[k]` the one at place `k`. -/
theorem storeRegisterRange : Obligations.StoreRegisterRange := by
  refine ⟨fun _ cls nn => decode_of_holds (r := .stm) ⟨cls, nn⟩, fun x s wf next fits => ?_, fun x s past => ?_,
    fun x s fits past => pcBoundsAtCommit (.stm x) s (decide_eq_false (Nat.not_le_of_lt fits)) (.inr past)⟩
  · have length := regBytes_length s x
    obtain ⟨t, stores, rest, bytes, others⟩ :=
      storeAtIndex_writes (bs := regBytes s x) wf next (by rw [length]; exact fits)
    rw [length] at others
    exact ⟨t, stores, rest, fun k le => (bytes k.val _).trans (regBytes_getElem s le), others⟩
  · have length := regBytes_length s x
    have faults := storeAtIndex_faults (s := s) (bs := regBytes s x) (by rw [length]; exact Nat.lt_succ_of_le past)
    rw [length] at faults
    exact faults

/-! ### Loads -/

/-- Bytes loaded into `V[k]`, `V[k+1]`, ... leave the registers before the first of them alone (R185). -/
theorem loadRegs_getElem_before {v : Vector Byte 16} {k : Nat} {bs : List Byte} {j : Nat} (hj : j < 16)
    (before : j < k) : (loadRegs v k bs)[j] = v[j] := by
  induction bs generalizing v k with
  | nil => rfl
  | cons b bs ih => rw [loadRegs, ih (by omega), Vector.getElem_setIfInBounds_ne _ (by omega)]

/-- Of bytes loaded into `V[k]`, `V[k+1]`, ... register `k + n` takes byte `n` (R185). -/
theorem loadRegs_getElem_loaded {v : Vector Byte 16} {k : Nat} {bs : List Byte} {n : Nat} (hn : n < bs.length)
    (hk : k + n < 16) : (loadRegs v k bs)[k + n] = bs[n] := by
  induction bs generalizing v k n with
  | nil => cases hn
  | cons b bs ih =>
    cases n with
    | zero => exact (loadRegs_getElem_before hk (Nat.lt_succ_self k)).trans (Vector.getElem_setIfInBounds_self _)
    | succ n =>
      have later := ih (v := v.setIfInBounds k b) (k := k + 1) (Nat.lt_of_succ_lt_succ hn) (by omega)
      simp only [Nat.add_right_comm k 1 n] at later
      exact later

/-- Bytes inside memory are loaded into the registers up to `x` (R65, R185). -/
theorem goesOn_ldm {x : Reg} {s : State} (fits : s.i.toNat + x.val < 65536) :
    GoesOn (.ldm x) s
      { s with v := loadRegs s.v 0 (bytesFrom s.mem (effectiveAddress s 0) (regCount x)) } := by
  have span : spanFits (effectiveAddress s 0) (regCount x) = true := (spanFits_iff _ _).2 (.inr fits)
  apply goesOn_of_complete
  rw [exec_ldm, execLdm, readSpan, if_pos span]

/-- Bytes past memory are not loaded: `MemBounds` with the highest address (R65, R244). -/
theorem execLdm_faults {x : Reg} {s : State} (past : 65536 ≤ s.i.toNat + x.val) :
    execLdm x s = .next (haltedBy s .memBounds (s.i.toNat + x.val)) := by
  obtain ⟨-, fits⟩ | ⟨e, -⟩ := readSpan_cases s.mem (effectiveAddress s 0) (regCount x)
  · rw [effectiveAddress_zero, regCount] at fits
    omega
  · rw [execLdm, e]
    rfl

/-- Settles O26: register `k` takes byte `k` of the span, and the registers past its end keep theirs. -/
theorem loadRegisterRange : Obligations.LoadRegisterRange := by
  refine ⟨fun _ cls nn => decode_of_holds (r := .ldm) ⟨cls, nn⟩, fun x s next fits => ?_,
    fun _ _ past => execLdm_faults past, fun _ _ fits => (goesOn_ldm fits).2⟩
  have completes := (goesOn_ldm fits).1 next
  refine ⟨_, completes, rfl, fun k le => ?_, fun k above => ?_⟩
  · have count : k.val < (bytesFrom s.mem (effectiveAddress s 0) (regCount x)).length := by
      rw [bytesFrom_length]
      exact Nat.lt_succ_of_le le
    have loaded := loadRegs_getElem_loaded (v := s.v) (k := 0) count (by omega)
    rw [bytesFrom_getElem] at loaded
    simp only [Nat.zero_add] at loaded
    exact loaded
  · have kept : mayWrite (.ldm x) k = false := decide_eq_false (Nat.not_le_of_lt above)
    exact registersOutsideDestinationsKeep _ _ _ k completes kept

/-! ### A store and a load of the same range -/

/-- Settles O27: the load reads at `I + k` the byte that the store put there. -/
theorem storeThenLoadRestoresRegisters : Obligations.StoreThenLoadRestoresRegisters := by
  intro x s t r wf next fits h mem index nextLoad
  obtain ⟨-, stores, -⟩ := storeRegisterRange
  obtain ⟨-, loads, -⟩ := loadRegisterRange
  obtain ⟨t', h', rest, stored, -⟩ := stores x s wf next fits
  cases h'.symm.trans h
  have sameIndex : r.i = s.i := by rw [index, rest]
  obtain ⟨u, hu, -, loaded, -⟩ := loads x r nextLoad (by rw [sameIndex]; exact fits)
  refine ⟨u, hu, fun k le => ?_⟩
  rw [loaded k le, ← stored k le, mem, effectiveAddress, sameIndex, effectiveAddress]

end Sys2Proof.Machine
end

section
/-! PROOFS. The framebuffer (R200 to R202): what the blit draws, clipped or wrapped, pixel by pixel, what it does
when it is repeated, and the instructions `CLS` and `DRW`. -/

open Sys2Proof.Claims

namespace Sys2Proof.Machine

/-! ### Pixels of the framebuffer -/

theorem pixelAt_of_lt (fb : Framebuffer) {r c : Nat} (hr : r < 32) (hc : c < 64) : pixelAt fb r c = fb[r][c] :=
  dif_pos ⟨hr, hc⟩

/-- A framebuffer is known by its pixels. -/
theorem framebuffer_ext {fb fb' : Framebuffer}
    (h : ∀ r c, r < 32 → c < 64 → (pixelAt fb r c = true ↔ pixelAt fb' r c = true)) : fb = fb' := by
  refine Vector.ext fun r hr => Vector.ext fun c hc => ?_
  rw [← pixelAt_of_lt fb hr hc, ← pixelAt_of_lt fb' hr hc]
  exact Bool.eq_iff_iff.2 (h r c hr hc)

/-- Toggling a pixel of the screen changes that pixel alone. -/
theorem pixelAt_togglePixel (fb : Framebuffer) {r c r' c' : Nat} (hr : r < 32) (hc : c < 64) (hr' : r' < 32)
    (hc' : c' < 64) :
    pixelAt (togglePixel fb r c) r' c' = if r' = r ∧ c' = c then !pixelAt fb r' c' else pixelAt fb r' c' := by
  have toggled : togglePixel fb r c = fb.set r (fb[r].set c (!fb[r][c])) := dif_pos ⟨hr, hc⟩
  rw [toggled, pixelAt_of_lt _ hr' hc', pixelAt_of_lt _ hr' hc', Vector.getElem_set]
  by_cases row : r = r'
  · subst row
    by_cases col : c = c'
    · subst col
      simp
    · simp [col, Ne.symm col]
  · simp [row, Ne.symm row]

/-! ### What a stretch of the blit draws -/

/-- From `d` to `d'` exactly the pixels of the screen in `lit` were toggled, and `hit` was raised exactly if one of
them was set (R201). -/
structure Draws (lit : Nat → Nat → Prop) (d d' : Blit) : Prop where
  pixels : ∀ r c, r < 32 → c < 64 → (pixelAt d'.fb r c = true ↔ ¬(pixelAt d.fb r c = true ↔ lit r c))
  hit : d'.hit = true ↔ d.hit = true ∨ ∃ r c, r < 32 ∧ c < 64 ∧ pixelAt d.fb r c = true ∧ lit r c

theorem Draws.congr {lit lit' : Nat → Nat → Prop} {d d' : Blit} (h : Draws lit d d')
    (same : ∀ r c, r < 32 → c < 64 → (lit r c ↔ lit' r c)) : Draws lit' d d' where
  pixels r c hr hc := by rw [h.pixels r c hr hc, same r c hr hc]
  hit := by
    rw [h.hit]
    refine or_congr_right (exists₂_congr fun r c => ?_)
    refine and_congr_right fun hr => and_congr_right fun hc => and_congr_right fun _ => same r c hr hc

theorem draws_nothing {lit : Nat → Nat → Prop} (none : ∀ r c, r < 32 → c < 64 → ¬lit r c) (d : Blit) :
    Draws lit d d where
  pixels r c hr hc := by simp [none r c hr hc]
  hit := by
    refine (or_iff_left ?_).symm
    rintro ⟨r, c, hr, hc, -, l⟩
    exact none r c hr hc l

/-- Two stretches that share no pixel draw together what each of them draws: the second one meets its pixels as they
were before the first. -/
theorem Draws.trans {lit lit' : Nat → Nat → Prop} {d d' d'' : Blit} (first : Draws lit d d')
    (second : Draws lit' d' d'') (apart : ∀ r c, r < 32 → c < 64 → lit r c → ¬lit' r c) :
    Draws (fun r c => lit r c ∨ lit' r c) d d'' where
  pixels r c hr hc := by
    have := apart r c hr hc
    rw [second.pixels r c hr hc, first.pixels r c hr hc]
    tauto
  hit := by
    have untouched : ∀ r c, r < 32 → c < 64 → lit' r c →
        (pixelAt d'.fb r c = true ↔ pixelAt d.fb r c = true) := by
      intro r c hr hc l'
      have := apart r c hr hc
      rw [first.pixels r c hr hc]
      tauto
    rw [second.hit, first.hit, or_assoc]
    refine or_congr_right ⟨?_, ?_⟩
    · rintro (⟨r, c, hr, hc, wasSet, l⟩ | ⟨r, c, hr, hc, wasSet, l'⟩)
      · exact ⟨r, c, hr, hc, wasSet, .inl l⟩
      · exact ⟨r, c, hr, hc, (untouched r c hr hc l').1 wasSet, .inr l'⟩
    · rintro ⟨r, c, hr, hc, wasSet, l | l'⟩
      · exact .inl ⟨r, c, hr, hc, wasSet, l⟩
      · exact .inr ⟨r, c, hr, hc, (untouched r c hr hc l').2 wasSet, l'⟩

theorem draws_plot (d : Blit) {r c : Nat} (hr : r < 32) (hc : c < 64) :
    Draws (fun r' c' => r' = r ∧ c' = c) d (plot d r c) where
  pixels r' c' hr' hc' := by
    rw [plot, pixelAt_togglePixel d.fb hr hc hr' hc']
    by_cases here : r' = r ∧ c' = c <;> simp [here]
  hit := by
    rw [plot, Bool.or_eq_true]
    refine or_congr_right ⟨fun wasSet => ⟨r, c, hr, hc, wasSet, rfl, rfl⟩, ?_⟩
    rintro ⟨_, _, -, -, wasSet, rfl, rfl⟩
    exact wasSet

/-! ### The edges of the screen (R6 EDGE_WRAP) -/

/-- Coordinate `u` of a sprite bit is coordinate `v` of the screen, or wraps to it from the opposite edge. -/
def Lands (wrap : Bool) (size u v : Nat) : Prop := u = v ∨ (wrap = true ∧ u = v + size)

/-- Two coordinates less than a screen apart do not land on the same place. -/
theorem Lands.apart {wrap : Bool} {size u u' v : Nat} (h : Lands wrap size u v) (h' : Lands wrap size u' v)
    (near : u' < u + size) (lt : u < u') : False := by
  unfold Lands at h h'
  omega

/-- Everything the edge can do to a coordinate less than two screens out: clip it, or give the place it lands on. -/
theorem atEdge_cases (wrap : Bool) {size u : Nat} (near : u < 2 * size) :
    (atEdge wrap size u = none ∧ ∀ v, v < size → ¬Lands wrap size u v) ∨
      ∃ w, w < size ∧ atEdge wrap size u = some w ∧ ∀ v, v < size → (Lands wrap size u v ↔ v = w) := by
  unfold Lands atEdge
  by_cases inside : u < size
  · exact .inr ⟨u, inside, if_pos inside, fun v hv => by omega⟩
  · rw [if_neg inside]
    cases wrap with
    | true => exact .inr ⟨u - size, by omega, rfl, fun v hv => by simp only [true_and]; omega⟩
    | false => exact .inl ⟨rfl, fun v hv => by simp only [Bool.false_eq_true, false_and, or_false]; omega⟩

/-! ### The loops of the blit (R201) -/

/-- A 1 bit of the byte among its columns `k` to `k + todo - 1` lands on screen column `c`. -/
def BitsLand (wrap : Bool) (b : Byte) (c0 k todo c : Nat) : Prop :=
  ∃ i, k ≤ i ∧ i < k + todo ∧ b.getLsbD (7 - i) = true ∧ Lands wrap 64 (c0 + i) c

theorem bitsLand_succ {wrap : Bool} {b : Byte} {c0 k todo c : Nat} :
    BitsLand wrap b c0 k (todo + 1) c ↔
      (b.getLsbD (7 - k) = true ∧ Lands wrap 64 (c0 + k) c) ∨ BitsLand wrap b c0 (k + 1) todo c := by
  constructor
  · rintro ⟨i, lo, hi, one, lands⟩
    obtain rfl | later := Nat.eq_or_lt_of_le lo
    · exact .inl ⟨one, lands⟩
    · exact .inr ⟨i, later, by omega, one, lands⟩
  · rintro (⟨one, lands⟩ | ⟨i, lo, hi, one, lands⟩)
    · exact ⟨k, by omega, by omega, one, lands⟩
    · exact ⟨i, by omega, by omega, one, lands⟩

theorem draws_blitBit (wrap : Bool) (b : Byte) {r c0 k : Nat} (hr : r < 32) (hc0 : c0 < 64) (hk : k < 8) (d : Blit) :
    Draws (fun r' c => r' = r ∧ b.getLsbD (7 - k) = true ∧ Lands wrap 64 (c0 + k) c) d
      (blitBit wrap b r c0 k d) := by
  obtain ⟨e, clipped⟩ | ⟨w, hw, e, lands⟩ := atEdge_cases wrap (size := 64) (u := c0 + k) (by omega)
  · simp only [blitBit, e]
    exact draws_nothing (fun _ c _ hc ⟨_, _, l⟩ => clipped c hc l) d
  · simp only [blitBit, e]
    split
    · next one => exact (draws_plot d hr hw).congr fun r' c _ hc => by rw [lands c hc, and_iff_right one]
    · next zero => exact draws_nothing (fun _ _ _ _ ⟨_, one, _⟩ => zero one) d

theorem draws_blitBits (wrap : Bool) (b : Byte) {r c0 k todo : Nat} (hr : r < 32) (hc0 : c0 < 64)
    (columns : k + todo ≤ 8) (d : Blit) :
    Draws (fun r' c => r' = r ∧ BitsLand wrap b c0 k todo c) d (blitBits wrap b r c0 k todo d) := by
  induction todo generalizing k d with
  | zero => exact draws_nothing (fun _ _ _ _ ⟨_, _, lo, hi, _⟩ => by omega) d
  | succ todo ih =>
    have first := draws_blitBit wrap b hr hc0 (k := k) (by omega) d
    refine (first.trans (ih (by omega) _) ?_).congr fun r' c _ _ => by rw [bitsLand_succ, and_or_left]
    rintro r' c - - ⟨-, -, lands⟩ ⟨-, i, lo, hi, -, lands'⟩
    exact lands.apart lands' (by omega) (by omega)

/-- One row of the sprite, or nothing where the bottom edge clips it: the body of `blitRows`. -/
def blitRow (wrap : Bool) (b : Byte) (r c0 : Nat) (d : Blit) : Blit :=
  match atEdge wrap Config.fbHeight r with
  | none => d
  | some r' => blitBits wrap b r' c0 0 8 d

theorem blitRows_cons (wrap : Bool) (c0 r : Nat) (b : Byte) (bs : List Byte) (d : Blit) :
    blitRows wrap c0 r (b :: bs) d = blitRows wrap c0 (r + 1) bs (blitRow wrap b r c0 d) := rfl

theorem draws_blitRow (wrap : Bool) (b : Byte) {r c0 : Nat} (hc0 : c0 < 64) (near : r < 64) (d : Blit) :
    Draws (fun r' c => Lands wrap 32 r r' ∧ BitsLand wrap b c0 0 8 c) d (blitRow wrap b r c0 d) := by
  obtain ⟨e, clipped⟩ | ⟨w, hw, e, lands⟩ := atEdge_cases wrap (size := 32) (u := r) near
  · simp only [blitRow, e]
    exact draws_nothing (fun r' _ hr' _ ⟨l, _⟩ => clipped r' hr' l) d
  · simp only [blitRow, e]
    exact (draws_blitBits wrap b hw hc0 (Nat.le_refl 8) d).congr fun r' _ hr' _ => by rw [lands r' hr']

/-- Sprite bit by sprite bit, or row by row: the pixels of R201. -/
theorem lit_iff_exists_row {wrap : Bool} {r0 c0 n : Nat} {sprite : Nat → Byte} {r c : Nat} :
    Lit wrap r0 c0 n sprite r c ↔
      ∃ j, j < n ∧ Lands wrap 32 (r0 + j) r ∧ BitsLand wrap (sprite j) c0 0 8 c := by
  constructor
  · rintro ⟨j, k, hj, hk, one, row, column⟩
    exact ⟨j, hj, row, k, Nat.zero_le k, by omega, one, column⟩
  · rintro ⟨j, hj, row, k, -, hk, one, column⟩
    exact ⟨j, k, hj, by omega, one, row, column⟩

theorem lit_cons {wrap : Bool} {r0 c0 : Nat} {b : Byte} {bs : List Byte} {r c : Nat} :
    Lit wrap r0 c0 (b :: bs).length (fun j => (b :: bs).getD j 0) r c ↔
      (Lands wrap 32 r0 r ∧ BitsLand wrap b c0 0 8 c) ∨
        Lit wrap (r0 + 1) c0 bs.length (fun j => bs.getD j 0) r c := by
  have nextRow : ∀ j, r0 + (j + 1) = r0 + 1 + j := fun j => by omega
  simp only [lit_iff_exists_row]
  constructor
  · rintro ⟨j, hj, row, bits⟩
    cases j with
    | zero => exact .inl ⟨row, bits⟩
    | succ j => exact .inr ⟨j, Nat.lt_of_succ_lt_succ hj, nextRow j ▸ row, bits⟩
  · rintro (⟨row, bits⟩ | ⟨j, hj, row, bits⟩)
    · exact ⟨0, Nat.succ_pos _, row, bits⟩
    · exact ⟨j + 1, Nat.succ_lt_succ hj, (nextRow j).symm ▸ row, bits⟩

theorem draws_blitRows (wrap : Bool) {c0 r : Nat} {sprite : List Byte} (hc0 : c0 < 64)
    (rows : sprite.length ≤ 32) (near : r + sprite.length ≤ 64) (d : Blit) :
    Draws (Lit wrap r c0 sprite.length (fun j => sprite.getD j 0)) d (blitRows wrap c0 r sprite d) := by
  induction sprite generalizing r d with
  | nil => exact draws_nothing (fun _ _ _ _ ⟨_, _, hj, _⟩ => Nat.not_lt_zero _ hj) d
  | cons b bs ih =>
    rw [List.length_cons] at rows near
    have first := draws_blitRow wrap b hc0 (r := r) (by omega) d
    rw [blitRows_cons]
    refine (first.trans (ih (by omega) (by omega) _) ?_).congr fun r' c _ _ => lit_cons.symm
    rintro r' c - - ⟨lands, -⟩ later
    obtain ⟨j, hj, lands', -⟩ := lit_iff_exists_row.1 later
    exact lands.apart lands' (by omega) (by omega)

/-- The whole blit draws the pixels of R201. -/
theorem draws_blitSprite (wrap : Bool) (fb : Framebuffer) {r0 c0 : Nat} {sprite : List Byte} (hr0 : r0 < 32)
    (hc0 : c0 < 64) (rows : sprite.length ≤ 15) :
    Draws (Lit wrap r0 c0 sprite.length (fun j => sprite.getD j 0)) ⟨fb, false⟩
      (blitSprite wrap fb r0 c0 sprite) :=
  draws_blitRows wrap hc0 (by omega) (by omega) _

/-- A blit that starts on an unset `hit` reports exactly the set pixels it met. -/
theorem Draws.hit_of_unset {lit : Nat → Nat → Prop} {fb : Framebuffer} {d : Blit} (h : Draws lit ⟨fb, false⟩ d) :
    d.hit = true ↔ ∃ r c, r < 32 ∧ c < 64 ∧ pixelAt fb r c = true ∧ lit r c :=
  h.hit.trans (or_iff_right Bool.false_ne_true)

/-- Settles O31: every row and every column of the sprite adds its own pixels, since a sprite is smaller than the
screen and so never meets itself. -/
theorem blitLoopsMeetPixelFormula : Obligations.BlitLoopsMeetPixelFormula := by
  intro wrap fb r0 c0 sprite hr0 hc0 rows
  have draws := draws_blitSprite wrap fb hr0 hc0 rows
  exact ⟨draws.pixels, draws.hit_of_unset⟩

/-- Settles O32: the second blit toggles the pixels of the first, and meets each of them inverted. -/
theorem drawingTwiceRestoresTheScreen : Obligations.DrawingTwiceRestoresTheScreen := by
  intro wrap fb r0 c0 sprite hr0 hc0 rows
  have first := draws_blitSprite wrap fb hr0 hc0 rows
  have second := draws_blitSprite wrap (blitSprite wrap fb r0 c0 sprite).fb hr0 hc0 rows
  constructor
  · refine framebuffer_ext fun r c hr hc => ?_
    rw [second.pixels r c hr hc, first.pixels r c hr hc]
    tauto
  · rw [second.hit_of_unset]
    refine exists₂_congr fun r c => and_congr_right fun hr => and_congr_right fun hc => and_congr_left fun lit => ?_
    rw [first.pixels r c hr hc, iff_true_right lit, Bool.not_eq_true]

/-! ### The instructions -/

/-- Settles O29: the screen handed to the commit is blank. -/
theorem clearScreenClearsEveryPixel : Obligations.ClearScreenClearsEveryPixel := by
  have goesOn : ∀ s : State, GoesOn .cls s { s with fb := blankScreen } := fun _ => goesOn_of_complete rfl
  exact ⟨decode_encode .cls,
    fun s next => ⟨_, (goesOn s).1 next, rfl, fun r c _ _ => pixelAt_blankScreen r c⟩, fun s => (goesOn s).2⟩

/-- The sprite bytes `DRW` reads are those the rule names (R201). -/
theorem lit_bytesFrom (wrap : Bool) (r0 c0 n : Nat) (s : State) (r c : Nat) :
    Lit wrap r0 c0 (bytesFrom s.mem (effectiveAddress s 0) n).length
        (fun j => (bytesFrom s.mem (effectiveAddress s 0) n).getD j 0) r c ↔
      Lit wrap r0 c0 n (spriteOf s) r c := by
  simp only [lit_iff_exists_row, bytesFrom_length]
  refine exists_congr fun j => and_congr_right fun hj => ?_
  have read : (bytesFrom s.mem (effectiveAddress s 0) n).getD j 0 = spriteOf s j := by
    rw [List.getD_eq_getElem _ _ (by rwa [bytesFrom_length]), bytesFrom_getElem]
    rfl
  rw [read]

/-- The sprite that lies in memory is drawn clipped, as R201 says of this hardware. -/
theorem draws_drawAt (s : State) (x y : Reg) (n : BitVec 4) :
    Draws (Lit false ((getV s y).toNat % 32) ((getV s x).toNat % 64) n.toNat (spriteOf s)) ⟨s.fb, false⟩
      (drawAt s x y (bytesFrom s.mem (effectiveAddress s 0) n.toNat)) := by
  have rows : (bytesFrom s.mem (effectiveAddress s 0) n.toNat).length ≤ 15 := by rw [bytesFrom_length]; omega
  have draws := draws_blitSprite edgeWrap s.fb (Nat.mod_lt (getV s y).toNat (y := 32) (by omega))
    (Nat.mod_lt (getV s x).toNat (y := 64) (by omega)) rows
  exact draws.congr fun r c _ _ => lit_bytesFrom ..

/-- A sprite inside memory is drawn and its collision reported (R201). -/
theorem goesOn_drw {x y : Reg} {n : BitVec 4} {s : State} (fits : n.toNat = 0 ∨ s.i.toNat + n.toNat ≤ 65536)
    {d : Blit} (drawn : d = drawAt s x y (bytesFrom s.mem (effectiveAddress s 0) n.toNat)) :
    GoesOn (.drw x y n) s (setV { s with fb := d.fb } 15 (flagByte d.hit)) := by
  have span : spanFits (effectiveAddress s 0) n.toNat = true := (spanFits_iff _ _).2 fits
  apply goesOn_of_complete
  rw [exec_drw, execDrw, readSpan, if_pos span, drawn]
  rfl

/-- A sprite past memory is not drawn: `MemBounds` with the highest address (R201, R244). -/
theorem execDrw_faults {x y : Reg} {n : BitVec 4} {s : State} (rows : 0 < n.toNat)
    (past : 65536 < s.i.toNat + n.toNat) :
    execDrw x y n s = .next (haltedBy s .memBounds (s.i.toNat + n.toNat - 1)) := by
  obtain ⟨-, fits⟩ | ⟨e, -⟩ := readSpan_cases s.mem (effectiveAddress s 0) n.toNat
  · rw [effectiveAddress_zero] at fits
    omega
  · rw [execDrw, e]
    rfl

theorem flagByte_eq_zero_or_one (c : Bool) : flagByte c = 0 ∨ flagByte c = 1 := by cases c <;> decide

theorem flagByte_eq_one_iff (c : Bool) : flagByte c = 1 ↔ c = true := by cases c <;> decide

/-- Settles O30: the blit of the bytes in memory, with its report in `VF` and nothing else written. -/
theorem drawXorsSpriteAndReportsCollision : Obligations.DrawXorsSpriteAndReportsCollision := by
  refine ⟨fun _ drw => decode_of_holds (r := .drw) drw, fun x y n s next fits => ?_,
    fun _ _ _ _ rows past => execDrw_faults rows past, fun _ _ _ _ fits => (goesOn_drw fits rfl).2⟩
  have draws := draws_drawAt s x y n
  generalize drawn : drawAt s x y (bytesFrom s.mem (effectiveAddress s 0) n.toNat) = d at draws
  have completes := (goesOn_drw fits drawn.symm).1 next
  have flag : getV { setV { s with fb := d.fb } 15 (flagByte d.hit) with pc := s.pc + 2, wait := false } 15 =
      flagByte d.hit := (getV_setV _ 15 15 _).trans (if_pos rfl)
  refine ⟨_, completes, rfl, fun k other => ?_, draws.pixels, ?_, ?_⟩
  · exact registersOutsideDestinationsKeep _ _ _ k completes (decide_eq_false other)
  · rw [flag]
    exact flagByte_eq_zero_or_one d.hit
  · rw [flag, flagByte_eq_one_iff, draws.hit_of_unset]

end Sys2Proof.Machine
end

section
/-! PROOFS. The units of the state and the instructions that write them (R25, R30, R31, R32, R42, R202). -/

namespace Sys2Proof.Machine

/-- The pending writes `w` of instruction `i` change none of `FB`, `I`, `STK`, `SP`, `DT`, `ST` that `i` is not a
writer of (R42). -/
structure KeepsUnits (i : Instr) (s w : State) : Prop where
  fb : i ≠ .cls → (∀ x y n, i ≠ .drw x y n) → w.fb = s.fb
  index : (∀ nnn, i ≠ .ldIdx nnn) → (∀ x, i ≠ .addIdx x) → (∀ x, i ≠ .ldFont x) → w.i = s.i
  stk : (∀ nnn, i ≠ .call nnn) → w.stk = s.stk
  sp : (∀ nnn, i ≠ .call nnn) → i ≠ .ret → w.sp = s.sp
  dt : (∀ x, i ≠ .ldWdt x) → w.dt = s.dt
  st : (∀ x, i ≠ .ldWst x) → w.st = s.st

/-- Pending writes to `V`, `MEM`, `PC` and `WAIT` alone. -/
theorem keepsUnits_of_same (i : Instr) {s w : State} (fb : w.fb = s.fb) (index : w.i = s.i) (stk : w.stk = s.stk)
    (sp : w.sp = s.sp) (dt : w.dt = s.dt) (st : w.st = s.st) : KeepsUnits i s w :=
  ⟨fun _ _ => fb, fun _ _ _ => index, fun _ => stk, fun _ _ => sp, fun _ => dt, fun _ => st⟩

/-- The outcomes that leave alone the units the instruction is not a writer of. -/
inductive OwnUnits (i : Instr) (s : State) : Host.Outcome State Fault Refusal → Prop where
  | faults (c : Cause) (info : Nat) : OwnUnits i s (.next (raiseFault s c info))
  | commits (w : State) (next : Nat) (wait : Bool) (keeps : KeepsUnits i s w) :
      OwnUnits i s (.next (commit s w next wait))

theorem ownUnits_storeAtIndex (i : Instr) (bs : List Byte) (s : State) : OwnUnits i s (storeAtIndex bs s) := by
  unfold storeAtIndex
  split
  · exact .faults _ _
  · exact .commits _ _ _ (keepsUnits_of_same i rfl rfl rfl rfl rfl rfl)

/-- Every instruction writes only the units that are its own (R42). -/
theorem exec_ownUnits (i : Instr) (s : State) : OwnUnits i s (exec i s) := by
  cases i with
  | cls =>
    exact .commits _ _ _ ⟨fun no _ => absurd rfl no, fun _ _ _ => rfl, fun _ => rfl, fun _ _ => rfl, fun _ => rfl,
      fun _ => rfl⟩
  | drw x y n =>
    rw [exec_drw, execDrw]
    split
    · exact .faults _ _
    · exact .commits _ _ _ ⟨fun _ no => absurd rfl (no x y n), fun _ _ _ => rfl, fun _ => rfl, fun _ _ => rfl,
        fun _ => rfl, fun _ => rfl⟩
  | ldIdx nnn =>
    exact .commits _ _ _ ⟨fun _ _ => rfl, fun no _ _ => absurd rfl (no nnn), fun _ => rfl, fun _ _ => rfl,
      fun _ => rfl, fun _ => rfl⟩
  | addIdx x =>
    exact .commits _ _ _ ⟨fun _ _ => rfl, fun _ no _ => absurd rfl (no x), fun _ => rfl, fun _ _ => rfl,
      fun _ => rfl, fun _ => rfl⟩
  | ldFont x =>
    exact .commits _ _ _ ⟨fun _ _ => rfl, fun _ _ no => absurd rfl (no x), fun _ => rfl, fun _ _ => rfl,
      fun _ => rfl, fun _ => rfl⟩
  | call nnn =>
    rw [exec_call, execCall]
    split
    · exact .faults _ _
    · exact .commits _ _ _ ⟨fun _ _ => push_fb s _, fun _ _ _ => push_i s _, fun no => absurd rfl (no nnn),
        fun no _ => absurd rfl (no nnn), fun _ => push_dt s _, fun _ => push_st s _⟩
  | ret =>
    rw [exec_ret, execRet]
    split
    · exact .faults _ _
    · exact .commits _ _ _ ⟨fun _ _ => rfl, fun _ _ _ => rfl, fun _ => rfl, fun _ no => absurd rfl no, fun _ => rfl,
        fun _ => rfl⟩
  | ldWdt x =>
    exact .commits _ _ _ ⟨fun _ _ => rfl, fun _ _ _ => rfl, fun _ => rfl, fun _ _ => rfl, fun no => absurd rfl (no x),
      fun _ => rfl⟩
  | ldWst x =>
    exact .commits _ _ _ ⟨fun _ _ => rfl, fun _ _ _ => rfl, fun _ => rfl, fun _ _ => rfl, fun _ => rfl,
      fun no => absurd rfl (no x)⟩
  | bcd x => exact ownUnits_storeAtIndex _ _ s
  | stm x => exact ownUnits_storeAtIndex _ _ s
  | ldm x =>
    rw [exec_ldm, execLdm]
    split
    · exact .faults _ _
    · exact .commits _ _ _ (keepsUnits_of_same _ rfl rfl rfl rfl rfl rfl)
  | ldKey x =>
    rw [exec_ldKey, execLdKey]
    cases lowestKey (keysNow s) with
    | none => exact .commits _ _ _ (keepsUnits_of_same _ rfl rfl rfl rfl rfl rfl)
    | some k => exact .commits _ _ _ (keepsUnits_of_same _ rfl rfl rfl rfl rfl rfl)
  | jp | seI | sneI | seR | ldI | addI | ldR | orR | andR | xorR | addR | sub | shr | subn | shl | sneR | jpV0 | rnd
  | skp | sknp | ldRdt => exact .commits _ _ _ (keepsUnits_of_same _ rfl rfl rfl rfl rfl rfl)

/-- Neither a fatal fault nor a commit touches a unit beyond the pending writes. -/
theorem keepsUnits_exec {i : Instr} {s t : State} (h : exec i s = .next t) : KeepsUnits i s t := by
  have own := exec_ownUnits i s
  rw [h] at own
  cases own with
  | faults c info => exact keepsUnits_of_same i rfl rfl rfl rfl rfl rfl
  | commits w next wait keeps =>
    obtain ⟨-, e⟩ | ⟨-, e⟩ := commit_cases s w next wait
    · rw [e]
      exact ⟨keeps.fb, keeps.index, keeps.stk, keeps.sp, keeps.dt, keeps.st⟩
    · rw [e]
      exact keepsUnits_of_same i rfl rfl rfl rfl rfl rfl

/-- Settles O42: each unit's writers are the instructions whose pending writes hold it. -/
theorem eachUnitHasItsWriters : Obligations.EachUnitHasItsWriters := by
  intro i s t h
  obtain ⟨fb, index, stk, sp, dt, st⟩ := keepsUnits_exec h
  exact ⟨fb, index, stk, sp, dt, st⟩

end Sys2Proof.Machine
end

section
/-! PROOFS. Keypad and timers (R220 to R227): the key skips, the wait for a key and its `WAIT` flag, and what the
timer instructions write. -/

open Sys2Proof.Claims

namespace Sys2Proof.Machine

/-! ### The wait flag -/

/-- A commit that does not halt the core has written `WAIT` (R224). -/
theorem wait_commit {before after : State} {next : Nat} {wait : Bool}
    (run : (commit before after next wait).mode = .run) : (commit before after next wait).wait = wait := by
  obtain ⟨-, e⟩ | ⟨-, e⟩ := commit_cases before after next wait
  · rw [e]
  · rw [e] at run
    cases run

/-- `Fx0A` waits exactly when it found no key (R223). -/
theorem wait_iff_of_exec_ldKey {x : Reg} {s t : State} (h : exec (.ldKey x) s = .next t) (run : t.mode = .run) :
    t.wait = true ↔ (inputNow s).keys = 0 := by
  rw [exec_ldKey, execLdKey] at h
  cases found : lowestKey (keysNow s) with
  | none =>
    rw [found] at h
    cases h
    exact iff_of_true (wait_commit run) (lowestKey_none.1 found)
  | some k =>
    have pressed : (inputNow s).keys ≠ 0 := fun quiet => by
      cases found.symm.trans (lowestKey_none.2 quiet)
    rw [found] at h
    cases h
    exact iff_of_false (by rw [keyOrWait, complete, wait_commit run]; exact Bool.false_ne_true) pressed

/-- Settles O36: a fatal fault writes no `WAIT`, and only an `Fx0A` hands a set one to the commit. -/
theorem waitFlagFollowsKeyWait : Obligations.WaitFlagFollowsKeyWait := by
  intro i s t run h
  obtain ⟨c, info, rfl⟩ | ⟨w, next, wait, pending, rfl⟩ := exec_next h
  · exact ⟨fun goes => Mode.noConfusion goes, fun _ => rfl⟩
  · have goes : w.mode = .run := pending.mode.trans run
    refine ⟨fun _ => ?_, fun halt => Mode.noConfusion (goes.symm.trans halt)⟩
    by_cases key : ∃ x, i = .ldKey x
    · obtain ⟨x, rfl⟩ := key
      rw [wait_iff_of_exec_ldKey h goes, and_iff_right ⟨x, rfl⟩]
    · exact iff_of_false (fun waits => key (pending.waits waits).2.2) fun ⟨isKey, _⟩ => key isKey

/-! ### What each instruction does -/

/-- Settles O33: both are skips on the level of the key that `V[x]` names. -/
theorem keySkips : Obligations.KeySkips :=
  ⟨fun _ cls nn => decode_of_holds (r := .skp) ⟨cls, nn⟩, fun _ cls nn => decode_of_holds (r := .sknp) ⟨cls, nn⟩,
    fun _ _ => skipsWhen_of_skipIf rfl, fun _ _ => skipsWhen_of_skipIf rfl⟩

/-- A pressed key below which none is pressed is the one `Fx0A` takes (R223). -/
theorem lowestKey_of_least {keys : BitVec 16} {k : Nat} (lt : k < 16) (pressed : keys.getLsbD k = true)
    (least : ∀ j < k, keys.getLsbD j = false) : lowestKey keys = some k :=
  List.find?_range_eq_some.2 ⟨pressed, List.mem_range.2 lt, fun j lower => by simp [keyDown, least j lower]⟩

/-- Settles O34: with no key down the commit is at `PC` itself, which is legal; else at `PC + 2` with the key. -/
theorem keyWaitPollsUntilPressed : Obligations.KeyWaitPollsUntilPressed := by
  refine ⟨fun _ cls nn => decode_of_holds (r := .ldKey) ⟨cls, nn⟩, fun x s pc quiet => ?_,
    fun x s k lt pressed least => goesOn_of_complete ?_⟩
  · have found : lowestKey (keysNow s) = none := lowestKey_none.2 quiet
    rw [exec_ldKey, execLdKey, found, keyOrWait, commit_legal ((pcLegal_iff _).2 pc), BitVec.ofNat_toNat,
      BitVec.setWidth_eq]
  · have found : lowestKey (keysNow s) = some k := lowestKey_of_least lt pressed least
    rw [exec_ldKey, execLdKey, found, keyOrWait]

/-- Settles O35: each of the three has one pending write, of a timer or of the register that reads one. -/
theorem timerAccess : Obligations.TimerAccess :=
  ⟨fun _ cls nn => decode_of_holds (r := .ldRdt) ⟨cls, nn⟩, fun _ cls nn => decode_of_holds (r := .ldWdt) ⟨cls, nn⟩,
    fun _ cls nn => decode_of_holds (r := .ldWst) ⟨cls, nn⟩, fun _ _ => goesOn_of_writeReg rfl rfl,
    fun _ _ => goesOn_of_complete rfl, fun _ _ => goesOn_of_complete rfl⟩

end Sys2Proof.Machine
end

section
/-! PROOFS. The input ports (R162, R220): an instruction does the same under any two that agree on what it samples. -/

open Sys2Proof.Claims

namespace Sys2Proof.Machine

/-! ### The same outcome under other ports -/

/-- A commit looks at no input port (R120 phase C). -/
theorem commit_withPorts (before after : State) (next : Nat) (wait : Bool) (ports : List CycleInput) (k : Nat) :
    commit (withPorts before ports k) (withPorts after ports k) next wait =
      withPorts (commit before after next wait) ports k := by
  by_cases legal : pcLegal next = true
  · rw [commit_legal legal, commit_legal legal]
    rfl
  · rw [commit_illegal legal, commit_illegal legal]
    rfl

/-- An outcome from `s`, and the one from `s` with the ports replaced that differs in the ports alone: the same
fatal fault, or a commit of the same pending writes at the same `next_pc`. -/
inductive SameUnderPorts (s : State) (ports : List CycleInput) (k : Nat) :
    Host.Outcome State Fault Refusal → Host.Outcome State Fault Refusal → Prop where
  | faults (c : Cause) (info : Nat) :
      SameUnderPorts s ports k (.next (raiseFault s c info)) (.next (raiseFault (withPorts s ports k) c info))
  | commits (w : State) (next : Nat) (wait : Bool) :
      SameUnderPorts s ports k (.next (commit s w next wait))
        (.next (commit (withPorts s ports k) (withPorts w ports k) next wait))

theorem SameUnderPorts.next {s t : State} {ports : List CycleInput} {k : Nat} {o : Host.Outcome State Fault Refusal}
    (same : SameUnderPorts s ports k (.next t) o) : o = .next (withPorts t ports k) := by
  cases same with
  | faults c info => rfl
  | commits w next wait => rw [commit_withPorts]

/-! ### The operations and the ports -/

@[simp] theorem withPorts_mem (s : State) (ports : List CycleInput) (k : Nat) : (withPorts s ports k).mem = s.mem :=
  rfl

@[simp] theorem effectiveAddress_withPorts (s : State) (ports : List CycleInput) (k d : Nat) :
    effectiveAddress (withPorts s ports k) d = effectiveAddress s d := rfl

/-- A call on a full stack (R125, R242). -/
theorem exec_call_of_full {s : State} (full : s.sp.val = 16) (nnn : BitVec 12) :
    exec (.call nnn) s = .next (raiseFault s .stackOverflow s.sp.val) := if_pos full

/-- A return from an empty stack (R123, R243). -/
theorem exec_ret_of_empty {s : State} (empty : s.sp.val = 0) :
    exec .ret s = .next (raiseFault s .stackUnderflow 0) := if_pos empty

theorem push_withPorts {s : State} (room : s.sp.val < 16) (w : Word) (ports : List CycleInput) (k : Nat) :
    push (withPorts s ports k) w = withPorts (push s w) ports k := by
  rw [push_notFull room, push_notFull (s := withPorts s ports k) room]
  rfl

theorem sameUnderPorts_call (nnn : BitVec 12) (s : State) (ports : List CycleInput) (k : Nat) :
    SameUnderPorts s ports k (exec (.call nnn) s) (exec (.call nnn) (withPorts s ports k)) := by
  obtain full | room := Nat.eq_or_lt_of_le (Nat.le_of_lt_succ s.sp.isLt)
  · rw [exec_call_of_full full, exec_call_of_full (s := withPorts s ports k) full]
    exact .faults _ _
  · rw [exec_call_of_room room, exec_call_of_room (s := withPorts s ports k) room, push_withPorts room]
    exact .commits _ _ _

theorem sameUnderPorts_ret (s : State) (ports : List CycleInput) (k : Nat) :
    SameUnderPorts s ports k (exec .ret s) (exec .ret (withPorts s ports k)) := by
  obtain empty | pos := Nat.eq_zero_or_pos s.sp.val
  · rw [exec_ret_of_empty empty, exec_ret_of_empty (s := withPorts s ports k) empty]
    exact .faults _ _
  · rw [exec_ret_of_pos pos, exec_ret_of_pos (s := withPorts s ports k) pos]
    exact .commits _ _ _

theorem sameUnderPorts_storeAtIndex (bs : List Byte) (s : State) (ports : List CycleInput) (k : Nat) :
    SameUnderPorts s ports k (storeAtIndex bs s) (storeAtIndex bs (withPorts s ports k)) := by
  rw [storeAtIndex, storeAtIndex, withPorts_mem, effectiveAddress_withPorts]
  cases writeSpan s.mem (effectiveAddress s 0) bs with
  | none => exact .faults _ _
  | some m => exact .commits _ _ _

/-- An instruction looks at no port but those it samples (R162, R220). -/
theorem exec_sameUnderPorts (i : Instr) (s : State) (ports : List CycleInput) (k : Nat)
    (keys : readsKeys i = true → keysNow (withPorts s ports k) = keysNow s)
    (rnd : readsRnd i = true → rndNow (withPorts s ports k) = rndNow s) :
    SameUnderPorts s ports k (exec i s) (exec i (withPorts s ports k)) := by
  cases i with
  | skp x =>
    rw [exec_skp, exec_skp, execSkp, execSkp, keys rfl]
    exact .commits _ _ _
  | sknp x =>
    rw [exec_sknp, exec_sknp, execSknp, execSknp, keys rfl]
    exact .commits _ _ _
  | ldKey x =>
    rw [exec_ldKey, exec_ldKey, execLdKey, execLdKey, keys rfl]
    cases lowestKey (keysNow s) with
    | none => exact .commits _ _ _
    | some key => exact .commits _ _ _
  | rnd x nn =>
    rw [exec_rnd, exec_rnd, execRnd, execRnd, rnd rfl]
    exact .commits _ _ _
  | bcd x => exact sameUnderPorts_storeAtIndex _ s ports k
  | stm x => exact sameUnderPorts_storeAtIndex _ s ports k
  | drw x y n =>
    rw [exec_drw, exec_drw, execDrw, execDrw, withPorts_mem, effectiveAddress_withPorts]
    cases readSpan s.mem (effectiveAddress s 0) n.toNat with
    | none => exact .faults _ _
    | some sprite => exact .commits _ _ _
  | ldm x =>
    rw [exec_ldm, exec_ldm, execLdm, execLdm, withPorts_mem, effectiveAddress_withPorts]
    cases readSpan s.mem (effectiveAddress s 0) (regCount x) with
    | none => exact .faults _ _
    | some bs => exact .commits _ _ _
  | call nnn => exact sameUnderPorts_call nnn s ports k
  | ret => exact sameUnderPorts_ret s ports k
  | cls | jp | seI | sneI | seR | ldI | addI | ldR | orR | andR | xorR | addR | sub | shr | subn | shl | sneR | ldIdx
  | jpV0 | ldRdt | ldWdt | ldWst | addIdx | ldFont => exact .commits _ _ _

/-- Settles O39: the two runs fault alike or commit the same pending writes, and neither looks at a port again. -/
theorem onlySamplingInstructionsSeeThePorts : Obligations.OnlySamplingInstructionsSeeThePorts := by
  intro i s t ports k keys rnd h
  have same := exec_sameUnderPorts i s ports k keys rnd
  rw [h] at same
  exact same.next

end Sys2Proof.Machine
end

section
/-! PROOFS. The tick service and the timers over a core cycle (R32, R260, R261). -/

namespace Sys2Proof.Machine

/-- Settles O37: the service is the countdown of R260 on each timer, and it takes up the cycle's own strobe. -/
theorem tickServiceCountsDown : Obligations.TickServiceCountsDown := fun _ => rfl

/-- Two states agree on the timers and on `TICK_PEND`. -/
structure SameTimers (s t : State) : Prop where
  dt : t.dt = s.dt
  st : t.st = s.st
  tickPend : t.tickPend = s.tickPend

/-- Phases P and Q leave the timers to the next tick service. -/
theorem sameTimers_endCycle (s : State) : SameTimers s (endCycle s) := by
  cases mode : s.mode with
  | run =>
    rw [endCycle_run mode]
    exact ⟨rfl, rfl, rfl⟩
  | halt =>
    rw [endCycle_halt mode]
    exact ⟨rfl, rfl, rfl⟩

/-- A commit without pending writes, as after the report of an unrecognised word, leaves the timers alone. -/
theorem sameTimers_complete_self (s : State) : SameTimers s (complete s s) := by
  obtain ⟨-, e⟩ | ⟨-, e⟩ := commit_cases s s (nextPc s) false
  · rw [complete, e]
    exact ⟨rfl, rfl, rfl⟩
  · rw [complete, e]
    exact ⟨rfl, rfl, rfl⟩

/-- Settles O38: after the tick service only `Fx15` writes `DT`, only `Fx18` writes `ST`, and nothing writes
`TICK_PEND`. -/
theorem timersChangeOnlyByTickAndTheirWrites : Obligations.TimersChangeOnlyByTickAndTheirWrites := by
  intro s t h
  obtain ⟨run, -, ⟨i, u, decoded, he, rfl⟩ | ⟨_, -, rfl⟩⟩ := step_next h
  · obtain ⟨dt, st, tickPend⟩ := sameTimers_endCycle u
    have units := keepsUnits_exec he
    obtain ⟨pendKept, -⟩ := statusRegistersAreOutOfReach i (tickService s) u run he
    rw [decoded]
    refine ⟨fun notWdt => dt.trans (units.dt fun x isWdt => ?_), fun notWst => st.trans (units.st fun x isWst => ?_),
      tickPend.trans pendKept⟩
    · exact notWdt x (congrArg _ isWdt)
    · exact notWst x (congrArg _ isWst)
  · obtain ⟨dt, st, tickPend⟩ := sameTimers_endCycle (complete (reportIllegal (tickService s) (fetch s)) _)
    have commit := sameTimers_complete_self (reportIllegal (tickService s) (fetch s))
    exact ⟨fun _ => dt.trans commit.dt, fun _ => st.trans commit.st, tickPend.trans commit.tickPend⟩

end Sys2Proof.Machine
end

section
/-! PROOFS. Exceptions (60_exceptions.md): an instruction's own fault comes first (R248), a fatal fault is precise
(R246, R247), an unrecognised word is reported and skipped (R245), and reset is the way out of HALT (R249). -/

open Sys2Proof.Claims

namespace Sys2Proof.Machine

/-! ### An instruction's own fault -/

/-- Settles O22: the six instructions with a fault of their own look for it before anything else. -/
theorem ownFaultBeatsPcBounds : Obligations.OwnFaultBeatsPcBounds := by
  intro i s own
  cases i with
  | call nnn =>
    obtain ⟨-, -, full, -⟩ := callPushesReturnAddress
    exact full nnn s (of_decide_eq_true own)
  | ret =>
    obtain ⟨-, -, empty, -⟩ := returnPopsIntoPc
    exact empty s (of_decide_eq_true own)
  | drw x y n =>
    rw [ownFault, Bool.and_eq_true, decide_eq_true_eq, decide_eq_true_eq] at own
    obtain ⟨rows, past⟩ := own
    exact execDrw_faults rows (by omega)
  | bcd x =>
    obtain ⟨-, -, past, -⟩ := bcdStoresDecimalDigits
    exact past x s (of_decide_eq_true own)
  | stm x =>
    obtain ⟨-, -, past, -⟩ := storeRegisterRange
    exact past x s (of_decide_eq_true own)
  | ldm x => exact execLdm_faults (of_decide_eq_true own)
  | cls | jp | seI | sneI | seR | ldI | addI | ldR | orR | andR | xorR | addR | sub | shr | subn | shl | sneR | ldIdx
  | jpV0 | rnd | skp | sknp | ldRdt | ldKey | ldWdt | ldWst | addIdx | ldFont => cases own

/-! ### Fatal faults over a core cycle -/

/-- A cycle that halts by another cause than the stop request was halted before its end (R246, R252). -/
theorem mode_of_fatal_endCycle {u : State} (halt : (endCycle u).mode = .halt)
    (fatal : (endCycle u).cause ≠ .stopRequest) : u.mode = .halt := by
  cases mode : u.mode with
  | halt => rfl
  | run =>
    obtain goesOn | stopped := mode_or_cause_endCycle_run mode
    · cases halt.symm.trans goesOn
    · exact absurd stopped fatal

/-- A commit of a running core halts it only by discarding the pending writes (R122). -/
theorem commit_of_halt {before after : State} {next : Nat} {wait : Bool} (run : after.mode = .run)
    (halt : (commit before after next wait).mode = .halt) :
    commit before after next wait = raiseFault before .pcBounds next := by
  obtain ⟨-, e⟩ | ⟨-, e⟩ := commit_cases before after next wait
  · rw [e] at halt
    cases run.symm.trans halt
  · exact e

/-- An instruction of a running core halts it only by a fatal fault (R246). -/
theorem exec_of_halt {i : Instr} {s u : State} (run : s.mode = .run) (h : exec i s = .next u)
    (halt : u.mode = .halt) : ∃ c info, u = raiseFault s c info := by
  obtain fault | ⟨w, next, wait, pending, rfl⟩ := exec_next h
  · exact fault
  · cases (pending.mode.trans run).symm.trans halt

/-- A core cycle that ends in a fatal fault raises it on the state that the tick service left, or on that state with
the report of an unrecognised word, and does nothing after it (R246, R247). -/
theorem step_of_fatal {s t : State} (h : step s = .next t) (halt : t.mode = .halt) (fatal : t.cause ≠ .stopRequest) :
    ∃ b c info, (b = tickService s ∨ b = reportIllegal (tickService s) (fetch s)) ∧
      t = nextInput (raiseFault b c info) := by
  obtain ⟨run, -, ⟨i, u, -, he, rfl⟩ | ⟨_, -, rfl⟩⟩ := step_next h
  · obtain ⟨c, info, rfl⟩ := exec_of_halt (s := tickService s) run he (mode_of_fatal_endCycle halt fatal)
    exact ⟨tickService s, c, info, .inl rfl, endCycle_halt rfl⟩
  · have e := commit_of_halt (after := reportIllegal (tickService s) (fetch s)) run
      (mode_of_fatal_endCycle halt fatal)
    rw [complete, e]
    exact ⟨_, _, _, .inr rfl, endCycle_halt rfl⟩

/-- Settles O51: neither the fault nor what precedes it in the cycle writes any of the state that R247 lists. -/
theorem fatalFaultsArePrecise : Obligations.FatalFaultsArePrecise := by
  intro s t h halt fatal
  obtain ⟨b, c, info, rfl | rfl, rfl⟩ := step_of_fatal h halt fatal
  · exact ⟨rfl, rfl, rfl, rfl, rfl, rfl, rfl, rfl, rfl, rfl, rfl, .inl ⟨rfl, rfl⟩⟩
  · exact ⟨rfl, rfl, rfl, rfl, rfl, rfl, rfl, rfl, rfl, rfl, rfl, .inr ⟨rfl, rfl⟩⟩

/-! ### Unrecognised words -/

/-- Settles O46: the commit after the report has the reported state both to keep and to fall back on. -/
theorem unrecognisedWordIsReportedAndSkipped : Obligations.UnrecognisedWordIsReportedAndSkipped := by
  intro s e run pc unrecognised
  rw [step_of_decode_error run pc unrecognised, execIllegal, endOutcome]
  obtain ⟨lo, -⟩ := pc
  constructor
  · intro hi
    have legal : pcLegal (s.pc.toNat + 2) = true := (pcLegal_iff _).2 ⟨by omega, hi⟩
    rw [complete_legal (before := reportIllegal (tickService s) (fetch s)) legal]
    rfl
  · intro past
    have out : nextPc (reportIllegal (tickService s) (fetch s)) < 0x200 ∨
        0xFFFE < nextPc (reportIllegal (tickService s) (fetch s)) := .inr past
    rw [complete, commit_outOfRange out]
    rfl

/-! ### Reset -/

/-- Settles O56: with nothing loaded a core held in reset has the reset state. -/
theorem resetDiscardsTheState : Obligations.ResetDiscardsTheState := fun _ => rfl

end Sys2Proof.Machine
end

section
/-! PROOFS. Reset and the loader (R280, R281, R284): the invariant of a core held in reset, and the program image it
is loaded with. -/

namespace Sys2Proof.Machine

/-- A core held in reset meets the invariant whatever canonical memory was loaded, since what the invariant says of
the rest of the state it says of the reset state. -/
theorem inv_heldInReset (s : State) {m : Memory} (wf : m.wf = true) : Inv (heldInReset s m) where
  memory := wf
  pc := resetMeetsTheInvariant.pc
  halt := resetMeetsTheInvariant.halt
  waiting := fun waits => absurd waits Bool.false_ne_true
  ill := resetMeetsTheInvariant.ill

/-- An image fits exactly when it ends inside memory (R284). -/
theorem le_maxImage_iff (n : Nat) : n ≤ maxImage ↔ Config.loadBase + n ≤ Config.memSize := by
  unfold maxImage Config.loadBase Config.memSize
  omega

theorem bootWith_fits (s : State) {image : List Byte} (fits : image.length ≤ maxImage) :
    bootWith s image = some (heldInReset s (putBytes [] Config.loadBase image)) := if_pos fits

theorem bootWith_tooLong (s : State) {image : List Byte} (long : maxImage < image.length) :
    bootWith s image = none := if_neg (Nat.not_le.2 long)

/-- Settles O57: the image is a stretch of bytes written into the memory of reset, inside its bounds. -/
theorem imageIsLoadedVerbatim : Obligations.ImageIsLoadedVerbatim := by
  intro s image
  refine ⟨bootWith_tooLong s, fun fits => ⟨_, bootWith_fits s fits, ?_⟩⟩
  have resetWf : Memory.wf [] = true := resetMeetsTheInvariant.memory
  have inMemory : Config.loadBase + image.length ≤ Config.memSize := (le_maxImage_iff _).1 fits
  exact ⟨inv_heldInReset s (wf_putBytes resetWf inMemory), rfl, rfl,
    fun _ bound => byteAt_putBytes_same resetWf inMemory bound,
    fun _ outside => byteAt_putBytes_other outside⟩

end Sys2Proof.Machine
end
